-- ==== Sys2Proof/Word.lean ====
section
/-! DEFINITION. The Word of the ALU (R1) and the constants and the two readings the spec's notation names
(00_scope.md section 5.2). Reading a Word as a number is in Machine/Codec.lean. -/

namespace Sys2Proof

/-- R1: the operand and result representation, 64 bits, not configurable. -/
abbrev Word := BitVec 64

/-- The signed or unsigned mode of an operation (R34): which value of a Word it reads. -/
inductive Signedness where
  | unsigned
  | signed
  deriving DecidableEq, Repr

/-- `MIN`, the least signed value of a Word: -2^63. -/
abbrev minSigned : Int := -9223372036854775808

/-- `MAX`, the greatest signed value of a Word: 2^63 - 1. -/
abbrev maxSigned : Int := 9223372036854775807

/-- `UMAX`, the greatest unsigned value of a Word: 2^64 - 1. -/
abbrev maxUnsigned : Int := 18446744073709551615

end Sys2Proof
end

