-- ==== Sys2Proof/Machine/Codec.lean ====
section
/-! DEFINITION. The Bit-Vector Codec (40_codec.md): how a bit pattern stands for an integer. `unsignedOf`, `signedOf` and
`trunc64` are the spec's `u`, `s` and `trunc64`; every operation is written with them. -/

namespace Sys2Proof.Machine

/-- R50: bit `i` of a BitVector in the source's numbering, index 0 the most significant. -/
def vectorBit {width : Nat} (v : BitVec width) (i : Nat) : Bool :=
  v.getMsbD i

/-- The failure of `toBits` (R51). Not a hardware event: no port value reaches it (R122). -/
inductive RangeError where
  | outOfRange (value : Int) (width : Nat) (mode : Signedness)
  deriving DecidableEq, Repr

/-- The values `toBits` accepts (R51). -/
def inRange (value : Int) (width : Nat) : Signedness → Bool
  | .unsigned => decide (0 ≤ value ∧ value ≤ 2 ^ width - 1)
  | .signed => decide (-2 ^ (width - 1) ≤ value ∧ value ≤ 2 ^ (width - 1) - 1)

/-- R51: the two's-complement pattern of an integer; the mode matters to the range check only. -/
def toBits (value : Int) (width : Nat) (mode : Signedness) : Except RangeError (BitVec width) :=
  if inRange value width mode then .ok (BitVec.ofInt width value)
  else .error (.outOfRange value width mode)

/-- R52: "summing `2^(width-1-i)` for each set bit i". -/
def fromBitsUnsigned {width : Nat} (v : BitVec width) : Int :=
  ((List.range width).map fun i => if vectorBit v i then (2 : Int) ^ (width - 1 - i) else 0).sum

/-- R53: index 0 contributes `-2^(width-1)` if set, and the remaining bits are summed positively. -/
def fromBitsSigned {width : Nat} (v : BitVec width) : Int :=
  ((List.range width).map fun i =>
    if vectorBit v i then (if i = 0 then -(2 : Int) ^ (width - 1) else (2 : Int) ^ (width - 1 - i)) else 0).sum

/-- `u(w)`, the unsigned value of a Word (R52); the source's `unsignedOf` (R55). -/
def unsignedOf (w : Word) : Int :=
  w.toNat

/-- `s(w)`, the signed value of a Word (R53). -/
def signedOf (w : Word) : Int :=
  w.toInt

/-- The value of a Word in a mode (R34). -/
def valueIn : Signedness → Word → Int
  | .unsigned, w => unsignedOf w
  | .signed, w => signedOf w

/-- R54: the Word whose unsigned value is `z mod 2^64`. -/
def trunc64 (z : Int) : Word :=
  BitVec.ofInt 64 z

/-- R54: the source's `truncate`, the residue read as a signed number. Never fails. -/
def truncate (z : Int) (width : Nat := 64) : Int :=
  (BitVec.ofInt width z).toInt

end Sys2Proof.Machine
end

