-- ==== Sys2Proof/Syntax.lean ====
section
/-! DEFINITION. The 27 defined operations (R36), one constructor per row of spec/opcode_table.json. An operation has no
operand fields: both operands are always the port values (R35), which State holds. -/

namespace Sys2Proof

/-- The operations of R36, in the order of its table. -/
inductive Instr where
  | and
  | or
  | nor
  | xor
  | nand
  | xnor
  | not
  | lsl
  | lsr
  | rol
  | ror
  | asr
  | neg
  | addu
  | adds
  | subu
  | subs
  | mulu
  | muls
  | divu
  | divs
  | modu
  | mods
  | u2f
  | s2f
  | u2d
  | s2d
  deriving DecidableEq, Repr

end Sys2Proof
end

