-- ==== Sys2Proof/WellFormed.lean ====
section
/-! DEFINITION. The three fields of the operation select (R32) and which of their values name an operation: the function
must be assigned in its class (R36, second table), and the mode bit may be 1 only where the function has a mode (R34). -/

namespace Sys2Proof

/-- The fields of `op[5:0]` (R32): class `op[5:4]`, function `op[3:1]`, mode `op[0]`. -/
structure Select where
  cls : BitVec 2
  fn : BitVec 3
  mode : BitVec 1
  deriving DecidableEq, Repr

/-- R36, second table: how many functions, counted from 0, a class has. -/
def Select.functionCount (f : Select) : Nat :=
  match f.cls.toNat with
  | 0 => 7
  | 1 => 5
  | 2 => 6
  | _ => 2

/-- The function number is assigned in its class. -/
def Select.functionAssigned (f : Select) : Bool :=
  decide (f.fn.toNat < f.functionCount)

/-- R34: add, subtract, multiply, divide, modulo (class 10 but for negate, function 000) and the conversions (class 11)
have a mode. -/
def Select.hasMode (f : Select) : Bool :=
  f.cls == 3#2 || (f.cls == 2#2 && f.fn != 0#3)

/-- R34: the mode bit is 0 where the function has no mode. -/
def Select.modeAllowed (f : Select) : Bool :=
  f.mode == 0#1 || f.hasMode

/-- The fields name a defined operation. -/
def Select.wellFormed (f : Select) : Bool :=
  f.functionAssigned && f.modeAllowed

end Sys2Proof
end

