-- ==== Sys2Proof/Decode.lean ====
section
/-! DEFINITION. The decoder of the operation select, total on its 64 codes and rejecting the 37 reserved ones by name
(R32, R36, R38), and the encoder. -/

namespace Sys2Proof

/-- Why a select code is reserved (R38). -/
inductive ReservedCode where
  /-- The function number is not assigned in its class (R36, second table). -/
  | function
  /-- The mode bit is 1 for a function that has no mode (R34). -/
  | mode
  deriving DecidableEq, Repr

/-- What a class and function number select (R36, second table): one operation without a mode, or an unsigned and a
signed variant. -/
inductive Function where
  | single (i : Instr)
  | moded (unsigned signed : Instr)
  deriving DecidableEq, Repr

/-- R32: cut the 6-bit code into its fields. -/
def selectOf (code : BitVec 6) : Select :=
  { cls := code.extractLsb' 4 2, fn := code.extractLsb' 1 3, mode := code.extractLsb' 0 1 }

/-- R32: the code with the given fields. -/
def codeOf (f : Select) : BitVec 6 :=
  (f.cls ++ f.fn) ++ f.mode

/-- R36, second table: the function numbers within each class. -/
def functionAt (cls : BitVec 2) (fn : BitVec 3) : Option Function :=
  match cls.toNat, fn.toNat with
  | 0, 0 => some (.single .and)
  | 0, 1 => some (.single .or)
  | 0, 2 => some (.single .nor)
  | 0, 3 => some (.single .xor)
  | 0, 4 => some (.single .nand)
  | 0, 5 => some (.single .xnor)
  | 0, 6 => some (.single .not)
  | 1, 0 => some (.single .lsl)
  | 1, 1 => some (.single .lsr)
  | 1, 2 => some (.single .rol)
  | 1, 3 => some (.single .ror)
  | 1, 4 => some (.single .asr)
  | 2, 0 => some (.single .neg)
  | 2, 1 => some (.moded .addu .adds)
  | 2, 2 => some (.moded .subu .subs)
  | 2, 3 => some (.moded .mulu .muls)
  | 2, 4 => some (.moded .divu .divs)
  | 2, 5 => some (.moded .modu .mods)
  | 3, 0 => some (.moded .u2f .s2f)
  | 3, 1 => some (.moded .u2d .s2d)
  | _, _ => none

/-- The operation a select code names, or why it is reserved (R34, R36, R38). -/
def decodeSelect (f : Select) : Except ReservedCode Instr :=
  match functionAt f.cls f.fn with
  | none => .error .function
  | some (.single i) => if f.mode = 0#1 then .ok i else .error .mode
  | some (.moded unsigned signed) => .ok (if f.mode = 0#1 then unsigned else signed)

/-- The decoder of the `op` port. -/
def decode (code : BitVec 6) : Except ReservedCode Instr :=
  decodeSelect (selectOf code)

/-- R36, first table: the select code of each operation. -/
def encode : Instr → BitVec 6
  | .and => 0x00#6
  | .or => 0x02#6
  | .nor => 0x04#6
  | .xor => 0x06#6
  | .nand => 0x08#6
  | .xnor => 0x0A#6
  | .not => 0x0C#6
  | .lsl => 0x10#6
  | .lsr => 0x12#6
  | .rol => 0x14#6
  | .ror => 0x16#6
  | .asr => 0x18#6
  | .neg => 0x20#6
  | .addu => 0x22#6
  | .adds => 0x23#6
  | .subu => 0x24#6
  | .subs => 0x25#6
  | .mulu => 0x26#6
  | .muls => 0x27#6
  | .divu => 0x28#6
  | .divs => 0x29#6
  | .modu => 0x2A#6
  | .mods => 0x2B#6
  | .u2f => 0x30#6
  | .s2f => 0x31#6
  | .u2d => 0x32#6
  | .s2d => 0x33#6

/-- An operation is well formed when the fields of its code are. -/
def Instr.wellFormed (i : Instr) : Bool :=
  (selectOf (encode i)).wellFormed

/-- The code the `op` port carries when the bits of a table row are `w`: the port is 6 bits wide, so a bit above it
reaches nothing. DESIGN CHOICE (log entry 11): the table numbers no bit above bit 5. -/
def portCode (nbits w : Nat) : BitVec 6 :=
  BitVec.ofNat 6 (w % 2 ^ nbits)

/-- What the decoder reads from a word of spec/opcode_table.json. -/
def decodeTableWord (nbits w : Nat) : Option Instr :=
  match decode (portCode nbits w) with
  | .ok i => some i
  | .error _ => none

end Sys2Proof
end

