-- ==== Sys2Proof/Machine/State.lean ====
section
/-! DEFINITION. The state of the model: the six ports of R17 and nothing else. The block has no register, counter, latch
or memory (R10 to R16, R20), so no field outlives the request it belongs to (log entry 1). -/

namespace Sys2Proof.Machine

/-- R17: every value in the block. `op`, `a`, `b` are driven by the host; `result`, `overflow`, `divideByZero` are the
response of the evaluation made last. -/
structure State where
  op : BitVec 6
  a : Word
  b : Word
  result : Word
  overflow : Bool
  divideByZero : Bool
  deriving DecidableEq, Repr

/-- R31: a request, the triple on the input ports. -/
structure Request where
  op : BitVec 6
  a : Word
  b : Word
  deriving DecidableEq, Repr

/-- R31: a response, the triple on the output ports. -/
structure Response where
  result : Word
  overflow : Bool
  divideByZero : Bool
  deriving DecidableEq, Repr

/-- R120: no operation raises, traps or aborts, and R142: none hangs. So there is no fault, and the type has no
constructor. DEDUCED (log entry 4); safe: every defined operation has its effect. -/
inductive Fault where
  deriving DecidableEq, Repr

/-- Why an evaluation is refused. -/
inductive Refusal where
  /-- Raised by no arm of `exec`: every operation has its meaning. Kept because the interface asks for it. Safe. -/
  | notModelled (mnemonic : String)
  /-- Raised by `step` when the `op` port holds a reserved code (R38, R124): no response is defined. Safe: nothing about
  the outputs of such a request can be proved. -/
  | reservedCode (code : BitVec 6) (why : ReservedCode)
  deriving DecidableEq, Repr

/-- The outcome of an evaluation. -/
abbrev Outcome := Host.Outcome State Fault Refusal

/-- The block has no reset (R135, R136). DESIGN CHOICE (log entry 2): every port at 0. The outputs are then the response
to the request on the inputs, `AND(0, 0)`, as R135 asks of the first moment. -/
def State.reset : State :=
  { op := 0#6, a := 0#64, b := 0#64, result := 0#64, overflow := false, divideByZero := false }

end Sys2Proof.Machine
end

