-- ==== Sys2Proof/Machine/Flags.lean ====
section
/-! DEFINITION. Every flag computation of the spec: the default-clear record (R13), overflow by comparing the truncated
with the exact result (R57, R80), and the response to a zero divisor (R95). -/

namespace Sys2Proof.Machine

/-- R13: a flag that an operation's rule does not set is 0. -/
def clearFlags (result : Word) : Response :=
  { result := result, overflow := false, divideByZero := false }

/-- R57: overflow is 1 exactly when the truncated result, read in the mode, differs from the exact result. -/
def overflowIn (mode : Signedness) (z : Int) : Bool :=
  valueIn mode (trunc64 z) != z

/-- R80: an exact result truncated to a Word, with its overflow in the operation's own reading. -/
def arithmetic (mode : Signedness) (z : Int) : Response :=
  { result := trunc64 z, overflow := overflowIn mode z, divideByZero := false }

/-- R95: the response to a zero divisor. -/
def zeroDivisor : Response :=
  { result := 0#64, overflow := false, divideByZero := true }

/-- R95: the zero test comes first; otherwise the exact quotient or remainder `z`, with overflow compared in `domain`. -/
def divide (domain : Signedness) (divisor : Word) (z : Int) : Response :=
  if divisor = 0#64 then zeroDivisor else arithmetic domain z

end Sys2Proof.Machine
end

