-- ==== Sys2Proof/Machine/Ops.lean ====
section
/-! DEFINITION. The named operations on the ports: what the host does to the inputs and what an evaluation does to the
outputs. There is no memory operation (R20), and no taking of an exception and no return from one, because the block has
neither (R120, R126). -/

namespace Sys2Proof.Machine

/-- R31: the request now on the input ports. -/
def State.request (s : State) : Request :=
  { op := s.op, a := s.a, b := s.b }

/-- R31: the response now on the output ports. -/
def State.response (s : State) : Response :=
  { result := s.result, overflow := s.overflow, divideByZero := s.divideByZero }

/-- The host drives the input ports with a request (R30, R31). -/
def State.present (s : State) (r : Request) : State :=
  { s with op := r.op, a := r.a, b := r.b }

/-- An evaluation drives all three output ports together (R23, R139) and no input. -/
def State.answer (s : State) (r : Response) : State :=
  { s with result := r.result, overflow := r.overflow, divideByZero := r.divideByZero }

/-- An operation of the block as the effect of an evaluation: the response is a function of the operands alone (R2). -/
def evaluate (f : Word → Word → Response) (s : State) : Outcome :=
  .next (s.answer (f s.a s.b))

end Sys2Proof.Machine
end

