-- ==== Sys2Proof/Machine/AddSub.lean ====
section
/-! DEFINITION. negate_unit and integer_adder (43_add_sub_negate.md): the exact result, truncated, with overflow in the
operation's own reading (R80). -/

namespace Sys2Proof.Machine

/-- R81: negate reads its operand as signed; the second operand is ignored (R37). -/
def opNeg (a _b : Word) : Response := arithmetic .signed (-signedOf a)

/-- R82. -/
def opAddu (a b : Word) : Response := arithmetic .unsigned (unsignedOf a + unsignedOf b)

/-- R83. -/
def opAdds (a b : Word) : Response := arithmetic .signed (signedOf a + signedOf b)

/-- R84. -/
def opSubu (a b : Word) : Response := arithmetic .unsigned (unsignedOf a - unsignedOf b)

/-- R85. -/
def opSubs (a b : Word) : Response := arithmetic .signed (signedOf a - signedOf b)

/-- NEG, R81. -/
def execNeg (s : State) : Outcome := evaluate opNeg s

/-- ADDU, R82. -/
def execAddu (s : State) : Outcome := evaluate opAddu s

/-- ADDS, R83. -/
def execAdds (s : State) : Outcome := evaluate opAdds s

/-- SUBU, R84. -/
def execSubu (s : State) : Outcome := evaluate opSubu s

/-- SUBS, R85. -/
def execSubs (s : State) : Outcome := evaluate opSubs s

end Sys2Proof.Machine
end

