-- ==== Sys2Proof/Machine/Bitwise.lean ====
section
/-! DEFINITION. bitwise_ops (41_bitwise.md): one Boolean operator on every bit, both flags 0 (R60). -/

namespace Sys2Proof.Machine

/-- R61. -/
def opAnd (a b : Word) : Response := clearFlags (a &&& b)

/-- R62. -/
def opOr (a b : Word) : Response := clearFlags (a ||| b)

/-- R63. -/
def opNor (a b : Word) : Response := clearFlags (~~~(a ||| b))

/-- R64. -/
def opXor (a b : Word) : Response := clearFlags (a ^^^ b)

/-- R65. -/
def opNand (a b : Word) : Response := clearFlags (~~~(a &&& b))

/-- R66. -/
def opXnor (a b : Word) : Response := clearFlags (~~~(a ^^^ b))

/-- R67; the second operand is ignored (R37). -/
def opNot (a _b : Word) : Response := clearFlags (~~~a)

/-- AND, R61. -/
def execAnd (s : State) : Outcome := evaluate opAnd s

/-- OR, R62. -/
def execOr (s : State) : Outcome := evaluate opOr s

/-- NOR, R63. -/
def execNor (s : State) : Outcome := evaluate opNor s

/-- XOR, R64. -/
def execXor (s : State) : Outcome := evaluate opXor s

/-- NAND, R65. -/
def execNand (s : State) : Outcome := evaluate opNand s

/-- XNOR, R66. -/
def execXnor (s : State) : Outcome := evaluate opXnor s

/-- NOT, R67. -/
def execNot (s : State) : Outcome := evaluate opNot s

end Sys2Proof.Machine
end

