-- ==== Sys2Proof/Config.lean ====
section
/-! DEFINITION. The two points the spec decides and for which it names an alternative a model may keep as a parameter
(92_eei_decisions.md D7 and D13, 93_implementation_defined.md U3 and U4), each at the spec's value. No value of the
spec is left open, so there is no free value here. -/

namespace Sys2Proof

/-- `U2F_S2F_ROUNDING` of D13: how U2F and S2F reach binary32. -/
inductive FloatRounding where
  /-- One rounding, from the exact integer to binary32 (the spec's choice, R108). -/
  | direct
  /-- Two roundings, to binary64 and then to binary32 (the alternative D13 names). -/
  | viaBinary64
  deriving DecidableEq, Repr

/-- `UDIV_OVERFLOW_DOMAIN` of D7: the reading in which DIVU and MODU compare the truncated result with the exact
one. UNVERIFIED (log entry 5): the spec's own reading of its source (R95). -/
def Config.udivOverflowDomain : Signedness := .unsigned

/-- `U2F_S2F_ROUNDING` of D13. UNVERIFIED (log entry 6): the spec's own reading of its source (R108). -/
def Config.floatRounding : FloatRounding := .direct

end Sys2Proof
end

