-- ==== Sys2Proof/Machine/FloatFormat.lean ====
section
/-! DEFINITION. The floating-point side of the conversions (46_int_to_fp.md): the two formats and what a pattern stands
for (R109), and the exact conversion of an integer (R108, R110). A pattern is a natural number below `2^(w + p)`. -/

namespace Sys2Proof.Machine

/-- R109: a format with precision `p`, an exponent field of `w` bits and a bias. -/
structure FloatFormat where
  precision : Nat
  expWidth : Nat
  bias : Nat
  deriving DecidableEq, Repr

/-- R109: binary32. -/
def binary32 : FloatFormat := { precision := 24, expWidth := 8, bias := 127 }

/-- R109: binary64. -/
def binary64 : FloatFormat := { precision := 53, expWidth := 11, bias := 1023 }

/-- The sign bit `S`, the most significant bit of a pattern (R109). -/
def signField (f : FloatFormat) (x : Nat) : Nat :=
  x / 2 ^ (f.expWidth + f.precision - 1) % 2

/-- The biased exponent field `E` of a pattern (R109). -/
def exponentField (f : FloatFormat) (x : Nat) : Nat :=
  x / 2 ^ (f.precision - 1) % 2 ^ f.expWidth

/-- The fraction field `T` of a pattern (R109). -/
def fractionField (f : FloatFormat) (x : Nat) : Nat :=
  x % 2 ^ (f.precision - 1)

/-- The kinds of pattern R109 and R115 name. -/
inductive FloatKind where
  | positiveZero
  | negativeZero
  | subnormal
  | normal
  | infinity
  | nan
  deriving DecidableEq, Repr

/-- The kind of a pattern. Zero and normal are R109's; PRESUMED (log entry 7): that the exponent field 0 with a non-zero
fraction is a subnormal, and the all-ones field an infinity or a NaN, is IEEE-754's own. -/
def kindOf (f : FloatFormat) (x : Nat) : FloatKind :=
  if exponentField f x = 0 then
    if fractionField f x = 0 then (if signField f x = 0 then .positiveZero else .negativeZero) else .subnormal
  else if exponentField f x = 2 ^ f.expWidth - 1 then
    if fractionField f x = 0 then .infinity else .nan
  else .normal

/-- The weight of the last place of a normal pattern, `2^(E - bias - (p - 1))`. -/
def unitInLastPlace (f : FloatFormat) (x : Nat) : ℚ :=
  (2 : ℚ) ^ ((exponentField f x : Int) - f.bias - (f.precision - 1))

/-- R109: the value of a normal number or a zero; the spec gives no value for the other kinds. -/
def valueOf (f : FloatFormat) (x : Nat) : Option ℚ :=
  match kindOf f x with
  | .positiveZero => some 0
  | .negativeZero => some 0
  | .normal =>
    some ((-1 : ℚ) ^ signField f x * (2 : ℚ) ^ ((exponentField f x : Int) - f.bias)
      * (1 + (fractionField f x : ℚ) / 2 ^ (f.precision - 1)))
  | .subnormal => none
  | .infinity => none
  | .nan => none

/-- A magnitude rounded to `p` significant bits: the position of the leading 1 and the significand, with
`2^(p-1) <= significand < 2^p` (R110). -/
structure Rounded where
  exponent : Nat
  significand : Nat
  deriving DecidableEq, Repr

/-- R110, the middle of `CVT`: round the magnitude `m > 0` to `p` bits, ties to the even significand, a carry out of the
significand raising the exponent. -/
def roundMagnitude (p m : Nat) : Rounded :=
  let e := m.log2
  if e ≤ p - 1 then { exponent := e, significand := m * 2 ^ (p - 1 - e) }
  else
    let sh := e - (p - 1)
    let q := m / 2 ^ sh
    let rem := m % 2 ^ sh
    let half := 2 ^ (sh - 1)
    let kept := if rem > half ∨ (rem = half ∧ q % 2 = 1) then q + 1 else q
    if kept = 2 ^ p then { exponent := e + 1, significand := 2 ^ (p - 1) }
    else { exponent := e, significand := kept }

/-- R110: `CVT(v, p, w, bias)`, the pattern of the value nearest to the integer `v`. -/
def convert (f : FloatFormat) (v : Int) : Nat :=
  if v = 0 then 0
  else
    let sign := if v < 0 then 1 else 0
    let r := roundMagnitude f.precision v.natAbs
    sign * 2 ^ (f.expWidth + f.precision - 1) + (r.exponent + f.bias) * 2 ^ (f.precision - 1)
      + (r.significand - 2 ^ (f.precision - 1))

/-- The integer that `v` becomes when its magnitude is rounded to `p` significant bits. Only the alternative of D13 uses
it, for the value after the rounding to binary64. -/
def roundInteger (p : Nat) (v : Int) : Int :=
  let r := roundMagnitude p v.natAbs
  if v = 0 then 0 else v.sign * ((r.significand * 2 ^ r.exponent / 2 ^ (p - 1) : Nat) : Int)

/-- R110: `F32(v)`, with the rounding of D13 as an argument. -/
def toBinary32 (rounding : FloatRounding) (v : Int) : BitVec 32 :=
  match rounding with
  | .direct => BitVec.ofNat 32 (convert binary32 v)
  | .viaBinary64 => BitVec.ofNat 32 (convert binary32 (roundInteger binary64.precision v))

/-- R110: `F64(v)`. -/
def toBinary64 (v : Int) : BitVec 64 :=
  BitVec.ofNat 64 (convert binary64 v)

/-- R107: a binary32 pattern in a Word, zeros above it. -/
def reinterpret32 (f : BitVec 32) : Word :=
  f.setWidth 64

/-- R107: a binary64 pattern is the Word. -/
def reinterpret64 (d : BitVec 64) : Word :=
  d

end Sys2Proof.Machine
end

