-- ==== Sys2Proof/Machine/Convert.lean ====
section
/-! DEFINITION. int_to_fp_converter followed by fp_to_int_reinterpreter (R106): the four conversions, both flags 0
(R105), the second operand ignored (R37). -/

namespace Sys2Proof.Machine

/-- R111. -/
def opU2f (a _b : Word) : Response :=
  clearFlags (reinterpret32 (toBinary32 Config.floatRounding (unsignedOf a)))

/-- R112. -/
def opS2f (a _b : Word) : Response :=
  clearFlags (reinterpret32 (toBinary32 Config.floatRounding (signedOf a)))

/-- R113. -/
def opU2d (a _b : Word) : Response :=
  clearFlags (reinterpret64 (toBinary64 (unsignedOf a)))

/-- R114. -/
def opS2d (a _b : Word) : Response :=
  clearFlags (reinterpret64 (toBinary64 (signedOf a)))

/-- U2F, R111. -/
def execU2f (s : State) : Outcome := evaluate opU2f s

/-- S2F, R112. -/
def execS2f (s : State) : Outcome := evaluate opS2f s

/-- U2D, R113. -/
def execU2d (s : State) : Outcome := evaluate opU2d s

/-- S2D, R114. -/
def execS2d (s : State) : Outcome := evaluate opS2d s

end Sys2Proof.Machine
end

