-- ==== Sys2Proof/Machine/Divide.lean ====
section
/-! DEFINITION. integer_divider (45_divide_modulo.md): the zero test, then floor division or floor modulo on the exact
values (R95). The unsigned operations take the reading in which overflow is compared as an argument (D7). -/

namespace Sys2Proof.Machine

/-- R96, with the overflow domain of D7 as an argument. -/
def divuIn (domain : Signedness) (a b : Word) : Response :=
  divide domain b (Int.fdiv (unsignedOf a) (unsignedOf b))

/-- R98, with the overflow domain of D7 as an argument. -/
def moduIn (domain : Signedness) (a b : Word) : Response :=
  divide domain b (Int.fmod (unsignedOf a) (unsignedOf b))

/-- R96, in the reading R95 decides for. -/
def opDivu (a b : Word) : Response := divuIn Config.udivOverflowDomain a b

/-- R97. -/
def opDivs (a b : Word) : Response := divide .signed b (Int.fdiv (signedOf a) (signedOf b))

/-- R98, in the reading R95 decides for. -/
def opModu (a b : Word) : Response := moduIn Config.udivOverflowDomain a b

/-- R99. -/
def opMods (a b : Word) : Response := divide .signed b (Int.fmod (signedOf a) (signedOf b))

/-- DIVU, R96. -/
def execDivu (s : State) : Outcome := evaluate opDivu s

/-- DIVS, R97. -/
def execDivs (s : State) : Outcome := evaluate opDivs s

/-- MODU, R98. -/
def execModu (s : State) : Outcome := evaluate opModu s

/-- MODS, R99. -/
def execMods (s : State) : Outcome := evaluate opMods s

end Sys2Proof.Machine
end

