-- ==== Sys2Proof/Machine/Multiply.lean ====
section
/-! DEFINITION. integer_multiplier (44_multiply.md): the low 64 bits of the exact product, with overflow in the
operation's own reading. -/

namespace Sys2Proof.Machine

/-- R90. -/
def opMulu (a b : Word) : Response := arithmetic .unsigned (unsignedOf a * unsignedOf b)

/-- R91. -/
def opMuls (a b : Word) : Response := arithmetic .signed (signedOf a * signedOf b)

/-- MULU, R90. -/
def execMulu (s : State) : Outcome := evaluate opMulu s

/-- MULS, R91. -/
def execMuls (s : State) : Outcome := evaluate opMuls s

end Sys2Proof.Machine
end

