-- ==== Sys2Proof/Machine/ShiftRotate.lean ====
section
/-! DEFINITION. shift_rotate_unit (42_shift_rotate.md). The amount is the whole second operand read as a signed number,
never masked by a shift (R71); both flags are 0 (R70). -/

namespace Sys2Proof.Machine

/-- R72: logical shift left by any integer amount; a negative amount shifts right, an amount of 64 or more in magnitude
gives 0. -/
def shiftLeft (a : Word) (n : Int) : Word :=
  if 64 ≤ n ∨ n ≤ -64 then 0#64
  else if 0 ≤ n then a <<< n.toNat
  else a >>> (-n).toNat

/-- R74: rotate right by any integer amount, taken modulo 64. -/
def rotateRight (a : Word) (n : Int) : Word :=
  a.rotateRight (n % 64).toNat

/-- R76, its five cases in the source's order. -/
def shiftRightArithmetic (a : Word) (n : Int) : Word :=
  if n = 0 then a
  else if 64 ≤ n then (if a.msb then BitVec.allOnes 64 else 0#64)
  else if n ≤ -64 then 0#64
  else if 0 < n then a.sshiftRight n.toNat
  else a <<< (-n).toNat

/-- R72. -/
def opLsl (a b : Word) : Response := clearFlags (shiftLeft a (signedOf b))

/-- R73: "defined as `SHL(value, -n)`", the negation taken in the integers. -/
def opLsr (a b : Word) : Response := clearFlags (shiftLeft a (-signedOf b))

/-- R75: "defined as `ROTR(value, -n)`", the negation taken in the integers. -/
def opRol (a b : Word) : Response := clearFlags (rotateRight a (-signedOf b))

/-- R74. -/
def opRor (a b : Word) : Response := clearFlags (rotateRight a (signedOf b))

/-- R76. -/
def opAsr (a b : Word) : Response := clearFlags (shiftRightArithmetic a (signedOf b))

/-- LSL, R72. -/
def execLsl (s : State) : Outcome := evaluate opLsl s

/-- LSR, R73. -/
def execLsr (s : State) : Outcome := evaluate opLsr s

/-- ROL, R75. -/
def execRol (s : State) : Outcome := evaluate opRol s

/-- ROR, R74. -/
def execRor (s : State) : Outcome := evaluate opRor s

/-- ASR, R76. -/
def execAsr (s : State) : Outcome := evaluate opAsr s

end Sys2Proof.Machine
end

