-- ==== Sys2Proof/Machine/Dispatch.lean ====
section
/-! DEFINITION. The one match that sends each operation to its meaning. -/

namespace Sys2Proof.Machine

def exec (i : Instr) (s : State) : Host.Outcome State Fault Refusal :=
  match i with
  | .and => Sys2Proof.Machine.execAnd s
  | .or => Sys2Proof.Machine.execOr s
  | .nor => Sys2Proof.Machine.execNor s
  | .xor => Sys2Proof.Machine.execXor s
  | .nand => Sys2Proof.Machine.execNand s
  | .xnor => Sys2Proof.Machine.execXnor s
  | .not => Sys2Proof.Machine.execNot s
  | .lsl => Sys2Proof.Machine.execLsl s
  | .lsr => Sys2Proof.Machine.execLsr s
  | .rol => Sys2Proof.Machine.execRol s
  | .ror => Sys2Proof.Machine.execRor s
  | .asr => Sys2Proof.Machine.execAsr s
  | .neg => Sys2Proof.Machine.execNeg s
  | .addu => Sys2Proof.Machine.execAddu s
  | .adds => Sys2Proof.Machine.execAdds s
  | .subu => Sys2Proof.Machine.execSubu s
  | .subs => Sys2Proof.Machine.execSubs s
  | .mulu => Sys2Proof.Machine.execMulu s
  | .muls => Sys2Proof.Machine.execMuls s
  | .divu => Sys2Proof.Machine.execDivu s
  | .divs => Sys2Proof.Machine.execDivs s
  | .modu => Sys2Proof.Machine.execModu s
  | .mods => Sys2Proof.Machine.execMods s
  | .u2f => Sys2Proof.Machine.execU2f s
  | .s2f => Sys2Proof.Machine.execS2f s
  | .u2d => Sys2Proof.Machine.execU2d s
  | .s2d => Sys2Proof.Machine.execS2d s

end Sys2Proof.Machine
end

