-- ==== Sys2Proof/Machine/Step.lean ====
section
/-! DEFINITION. One evaluation of the request on the input ports (R2, R141), and the host's placing of a select code. -/

namespace Sys2Proof.Machine

/-- R2: evaluate the request on the ports; a reserved code is refused (R124). -/
def step (s : State) : Host.Outcome State Fault Refusal :=
  match decode s.op with
  | .ok i => exec i s
  | .error why => .refused (.reservedCode s.op why)

/-- The host puts the code of a table word on the `op` port, so that the next evaluation runs it. The block fetches
nothing (R11), so nothing else is set (log entry 12). -/
def State.withFetchWord (s : State) (nbits w : Nat) : State :=
  { s with op := portCode nbits w }

end Sys2Proof.Machine
end

