-- ==== Sys2Proof/Machine/Operands.lean ====
section
/-! DEFINITION. How each operation reads its two operand ports (R35), which operations have a mode (R34), and the bit of a
Word at an integer position, as the pseudocode of the shifts uses it (R72, R73, R76). -/

namespace Sys2Proof.Machine

/-- The ways R35 reads an operand. -/
inductive Reading where
  /-- 64 independent bits, a pattern. -/
  | pattern
  /-- The unsigned value `u`. -/
  | unsigned
  /-- The signed value `s`. -/
  | signed
  /-- The signed value `n = s(b)`, a shift or rotate amount (R71). -/
  | amount
  /-- Not read at all (R37). -/
  | ignored
  deriving DecidableEq, Repr

/-- R35, column `a`. ASR reads a pattern whose bit 63 is the sign. -/
def readingA : Instr → Reading
  | .and | .or | .nor | .xor | .nand | .xnor | .not => .pattern
  | .lsl | .lsr | .rol | .ror | .asr => .pattern
  | .neg => .signed
  | .addu | .subu | .mulu | .divu | .modu => .unsigned
  | .adds | .subs | .muls | .divs | .mods => .signed
  | .u2f | .u2d => .unsigned
  | .s2f | .s2d => .signed

/-- R35, column `b`. -/
def readingB : Instr → Reading
  | .and | .or | .nor | .xor | .nand | .xnor => .pattern
  | .not | .neg => .ignored
  | .lsl | .lsr | .rol | .ror | .asr => .amount
  | .addu | .subu | .mulu | .divu | .modu => .unsigned
  | .adds | .subs | .muls | .divs | .mods => .signed
  | .u2f | .s2f | .u2d | .s2d => .ignored

/-- R34: the mode of an operation that has one. -/
def modeOf : Instr → Option Signedness
  | .and | .or | .nor | .xor | .nand | .xnor | .not => none
  | .lsl | .lsr | .rol | .ror | .asr => none
  | .neg => none
  | .addu | .subu | .mulu | .divu | .modu | .u2f | .u2d => some .unsigned
  | .adds | .subs | .muls | .divs | .mods | .s2f | .s2d => some .signed

/-- `w[j]` for `0 <= j <= 63` and 0 outside, as the pseudocode of R72, R73 and R76 reads a bit. -/
def bitOr0 (w : Word) (j : Int) : Bool :=
  if 0 ≤ j ∧ j ≤ 63 then w.getLsbD j.toNat else false

end Sys2Proof.Machine
end

