-- ==== Sys2Proof/Machine/Alu.lean ====
section
/-! DEFINITION. The block as one function of the request (R2), and its eight parts (R3). -/

namespace Sys2Proof.Machine

/-- R3: the parts of the block. -/
inductive Part where
  | bitwiseOps
  | shiftRotateUnit
  | negateUnit
  | integerAdder
  | integerMultiplier
  | integerDivider
  | intToFpConverter
  | fpToIntReinterpreter
  deriving DecidableEq, Repr

/-- R3: the parts that compute an operation, in the order the data passes them. -/
def partsOf : Instr → List Part
  | .and | .or | .nor | .xor | .nand | .xnor | .not => [.bitwiseOps]
  | .lsl | .lsr | .rol | .ror | .asr => [.shiftRotateUnit]
  | .neg => [.negateUnit]
  | .addu | .adds | .subu | .subs => [.integerAdder]
  | .mulu | .muls => [.integerMultiplier]
  | .divu | .divs | .modu | .mods => [.integerDivider]
  | .u2f | .s2f | .u2d | .s2d => [.intToFpConverter, .fpToIntReinterpreter]

/-- R33, last column: the class whose row names the part. -/
def classOf : Part → BitVec 2
  | .bitwiseOps => 0b00#2
  | .shiftRotateUnit => 0b01#2
  | .negateUnit | .integerAdder | .integerMultiplier | .integerDivider => 0b10#2
  | .intToFpConverter | .fpToIntReinterpreter => 0b11#2

/-- R2: the block as one total function, the result selector of R3 routing the selected operation's response to the
outputs. -/
def alu (i : Instr) (a b : Word) : Response :=
  match i with
  | .and => opAnd a b
  | .or => opOr a b
  | .nor => opNor a b
  | .xor => opXor a b
  | .nand => opNand a b
  | .xnor => opXnor a b
  | .not => opNot a b
  | .lsl => opLsl a b
  | .lsr => opLsr a b
  | .rol => opRol a b
  | .ror => opRor a b
  | .asr => opAsr a b
  | .neg => opNeg a b
  | .addu => opAddu a b
  | .adds => opAdds a b
  | .subu => opSubu a b
  | .subs => opSubs a b
  | .mulu => opMulu a b
  | .muls => opMuls a b
  | .divu => opDivu a b
  | .divs => opDivs a b
  | .modu => opModu a b
  | .mods => opMods a b
  | .u2f => opU2f a b
  | .s2f => opS2f a b
  | .u2d => opU2d a b
  | .s2d => opS2d a b

end Sys2Proof.Machine
end

