-- ==== Sys2Proof/Machine/Requests.lean ====
section
/-! DEFINITION. The host's side of the boundary: presenting a request and evaluating it, a sequence of requests (R139,
R140), and several copies of the block (R130). -/

namespace Sys2Proof.Machine

/-- The host presents a request and the block evaluates it. -/
def serveOne (s : State) (r : Request) : Outcome :=
  step (s.present r)

/-- The host presents requests one after another, each evaluated completely before the next (R140). -/
def serve (s : State) : List Request → Outcome
  | [] => .next s
  | r :: rs =>
    match serveOne s r with
    | .next t => serve t rs
    | .fault f => .fault f
    | .refused f => .refused f

/-- R130: one evaluation by copy `j` of a system of blocks; a position that holds no copy evaluates nothing. -/
def stepAt (blocks : List State) (j : Nat) : Host.Outcome (List State) Fault Refusal :=
  match blocks[j]? with
  | none => .next blocks
  | some s =>
    match step s with
    | .next t => .next (blocks.set j t)
    | .fault f => .fault f
    | .refused f => .refused f

end Sys2Proof.Machine
end

