-- ==== Sys2Proof/Safety.lean ====
section
/-! DEFINITION. What counts as a safe run, in the terms the statements use: the operand contract of R138, what holds of
the output ports after an evaluation, and the spec's table of which operation sets which flag. -/

namespace Sys2Proof

open Machine

/-- R138: the host owes the block one of the 27 defined codes. -/
def ContractMet (s : State) : Prop :=
  ∃ i, decode s.op = .ok i

/-- R123 and R101(d): at most one flag is 1, and a divide-by-zero flag of 1 comes with the result 0. -/
def FlagsConsistent (s : State) : Prop :=
  ¬(s.overflow = true ∧ s.divideByZero = true) ∧ (s.divideByZero = true → s.result = 0#64)

/-- R135: the outputs are the response to the request now on the inputs. -/
def Settled (s : State) : Prop :=
  ∃ i, decode s.op = .ok i ∧ s.response = alu i s.a s.b

/-- R37: the operations that read `a` only. -/
def unaryOperations : List Instr := [.not, .neg, .u2f, .s2f, .u2d, .s2d]

/-- The exact result `z` lies outside the signed range of a Word. -/
def OutsideSigned (z : Int) : Prop := z < minSigned ∨ maxSigned < z

/-- R13, column `overflow` of its table: when an operation sets the flag. -/
def OverflowSet (i : Instr) (a b : Word) : Prop :=
  match i with
  | .and | .or | .nor | .xor | .nand | .xnor | .not => False
  | .lsl | .lsr | .rol | .ror | .asr => False
  | .neg => signedOf a = minSigned
  | .addu => unsignedOf a + unsignedOf b > maxUnsigned
  | .adds => OutsideSigned (signedOf a + signedOf b)
  | .subu => unsignedOf a < unsignedOf b
  | .subs => OutsideSigned (signedOf a - signedOf b)
  | .mulu => unsignedOf a * unsignedOf b > maxUnsigned
  | .muls => OutsideSigned (signedOf a * signedOf b)
  | .divu | .modu | .mods => False
  | .divs => signedOf a = minSigned ∧ signedOf b = -1
  | .u2f | .s2f | .u2d | .s2d => False

/-- R13, column `divideByZero` of its table: when an operation sets the flag. -/
def DivideByZeroSet (i : Instr) (b : Word) : Prop :=
  i ∈ [Instr.divu, .divs, .modu, .mods] ∧ b = 0#64

/-- R60: the operation applies the Boolean operator `f` to each of the 64 bit positions, with both flags 0, and drives
no input port. -/
def ActsBitwise (i : Instr) (f : Bool → Bool → Bool) : Prop :=
  ∀ s : State, ∃ t, exec i s = .next t
    ∧ (∀ k, k < 64 → t.result.getLsbD k = f (s.a.getLsbD k) (s.b.getLsbD k))
    ∧ t.overflow = false ∧ t.divideByZero = false ∧ t.request = s.request

/-- R72 to R76: bit `k` of the result is `f` of the operand word, the amount `n = s(b)` and `k`, with both flags 0 (R70),
and no input port is driven. -/
def MovesBits (i : Instr) (f : Word → Int → Nat → Bool) : Prop :=
  ∀ s : State, ∃ t, exec i s = .next t
    ∧ (∀ k, k < 64 → t.result.getLsbD k = f s.a (signedOf s.b) k)
    ∧ t.overflow = false ∧ t.divideByZero = false ∧ t.request = s.request

/-- R106: the conversion gives the pattern in format `f` of the operand's value in a mode, with both flags 0 (R105), and
drives no input port. -/
def ConvertsTo (i : Instr) (f : FloatFormat) (mode : Signedness) : Prop :=
  ∀ s : State, ∃ t, exec i s = .next t
    ∧ t.result.toNat = convert f (valueIn mode s.a)
    ∧ t.overflow = false ∧ t.divideByZero = false ∧ t.request = s.request

/-- R110: the integers the converter is given. -/
abbrev ConvertibleRange (v : Int) : Prop := minSigned ≤ v ∧ v ≤ maxUnsigned

end Sys2Proof
end

