-- ==== Sys2Proof/Certificates/Slice0/Obligations.lean ====
section
/-! DEFINITION. The statements for the provers, each from numbered rules of spec/. -/

open Sys2Proof Sys2Proof.Machine

/-! ## Encoding -/

/-- R36: the 27 defined operations and their select codes. -/
def Obligations.CodesDecodeAsTabulated : Prop :=
  decode 0b000000#6 = .ok .and ∧ decode 0b000010#6 = .ok .or ∧ decode 0b000100#6 = .ok .nor
  ∧ decode 0b000110#6 = .ok .xor ∧ decode 0b001000#6 = .ok .nand ∧ decode 0b001010#6 = .ok .xnor
  ∧ decode 0b001100#6 = .ok .not
  ∧ decode 0b010000#6 = .ok .lsl ∧ decode 0b010010#6 = .ok .lsr ∧ decode 0b010100#6 = .ok .rol
  ∧ decode 0b010110#6 = .ok .ror ∧ decode 0b011000#6 = .ok .asr
  ∧ decode 0b100000#6 = .ok .neg ∧ decode 0b100010#6 = .ok .addu ∧ decode 0b100011#6 = .ok .adds
  ∧ decode 0b100100#6 = .ok .subu ∧ decode 0b100101#6 = .ok .subs ∧ decode 0b100110#6 = .ok .mulu
  ∧ decode 0b100111#6 = .ok .muls ∧ decode 0b101000#6 = .ok .divu ∧ decode 0b101001#6 = .ok .divs
  ∧ decode 0b101010#6 = .ok .modu ∧ decode 0b101011#6 = .ok .mods
  ∧ decode 0b110000#6 = .ok .u2f ∧ decode 0b110001#6 = .ok .s2f ∧ decode 0b110010#6 = .ok .u2d
  ∧ decode 0b110011#6 = .ok .s2d

/-- R38, R124: the 37 reserved codes, all of them and no other, decode to no operation, and a request with one of them
is refused. -/
def Obligations.ReservedCodesAreRefused : Prop :=
  let reserved : List (BitVec 6) :=
    [0x01, 0x03, 0x05, 0x07, 0x09, 0x0B, 0x0D, 0x0E, 0x0F,
     0x11, 0x13, 0x15, 0x17, 0x19, 0x1A, 0x1B, 0x1C, 0x1D, 0x1E, 0x1F,
     0x21, 0x2C, 0x2D, 0x2E, 0x2F,
     0x34, 0x35, 0x36, 0x37, 0x38, 0x39, 0x3A, 0x3B, 0x3C, 0x3D, 0x3E, 0x3F]
  reserved.length = 37 ∧ reserved.Nodup
  ∧ (∀ c, (∃ why, decode c = .error why) ↔ c ∈ reserved)
  ∧ ∀ s : State, s.op ∈ reserved → ∃ why, step s = .refused (.reservedCode s.op why)

/-- R32 (the field places of the spec's decision D3): the select code is exactly its three fields, class in bits 5 and
4, function in bits 3 to 1, mode in bit 0. -/
def Obligations.SelectFieldsPartitionTheCode : Prop :=
  (∀ c : BitVec 6,
    (∀ k, k < 2 → (selectOf c).cls.getLsbD k = c.getLsbD (4 + k))
    ∧ (∀ k, k < 3 → (selectOf c).fn.getLsbD k = c.getLsbD (1 + k))
    ∧ (selectOf c).mode.getLsbD 0 = c.getLsbD 0
    ∧ codeOf (selectOf c) = c)
  ∧ ∀ f : Select, selectOf (codeOf f) = f

/-- R3 and R33 (the spec's decisions D19 and D3): each part computes the operations R3's table gives it and no other,
the conversions pass through the converter and then the reinterpreter, and the code of each operation lies in the
class whose row of R33 names its part. -/
def Obligations.ClassFollowsThePart : Prop :=
  (∀ i, partsOf i = [.bitwiseOps] ↔ i ∈ [Instr.and, .or, .nor, .xor, .nand, .xnor, .not])
  ∧ (∀ i, partsOf i = [.shiftRotateUnit] ↔ i ∈ [Instr.lsl, .lsr, .rol, .ror, .asr])
  ∧ (∀ i, partsOf i = [.negateUnit] ↔ i ∈ [Instr.neg])
  ∧ (∀ i, partsOf i = [.integerAdder] ↔ i ∈ [Instr.addu, .adds, .subu, .subs])
  ∧ (∀ i, partsOf i = [.integerMultiplier] ↔ i ∈ [Instr.mulu, .muls])
  ∧ (∀ i, partsOf i = [.integerDivider] ↔ i ∈ [Instr.divu, .divs, .modu, .mods])
  ∧ (∀ i, partsOf i = [.intToFpConverter, .fpToIntReinterpreter] ↔ i ∈ [Instr.u2f, .s2f, .u2d, .s2d])
  ∧ (∀ i, ∃ p, p ∈ partsOf i ∧ ∀ q ∈ partsOf i, classOf q = classOf p ∧ (selectOf (encode i)).cls = classOf q)
  ∧ (∀ p, classOf p = 0b00#2 ↔ p = .bitwiseOps)
  ∧ (∀ p, classOf p = 0b01#2 ↔ p = .shiftRotateUnit)
  ∧ (∀ p, classOf p = 0b10#2 ↔ p ∈ [Part.negateUnit, .integerAdder, .integerMultiplier, .integerDivider])
  ∧ ∀ p, classOf p = 0b11#2 ↔ p ∈ [Part.intToFpConverter, .fpToIntReinterpreter]

/-- R34 (the spec's decision D3): the mode bit exists for add, subtract, multiply, divide, modulo and the conversions,
where 0 reads the operands with `u` and 1 with `s`; for every other operation it is 0 and the code with a 1 there is
reserved. That the decoder gives the reason `mode` for such a code is the model's own naming (log entry 3). -/
def Obligations.ModeBitSelectsTheReading : Prop :=
  (∀ i, modeOf i = none ↔ i ∈ [Instr.and, .or, .nor, .xor, .nand, .xnor, .not, .lsl, .lsr, .rol, .ror, .asr, .neg])
  ∧ (∀ i, modeOf i = none → (encode i).getLsbD 0 = false ∧ decode (encode i ||| 1#6) = .error .mode)
  ∧ (∀ i, modeOf i = some .unsigned → (encode i).getLsbD 0 = false ∧ readingA i = .unsigned
      ∧ (readingB i = .unsigned ∨ readingB i = .ignored)
      ∧ ∃ j, decode (encode i ||| 1#6) = .ok j ∧ modeOf j = some .signed)
  ∧ (∀ i, modeOf i = some .signed → (encode i).getLsbD 0 = true ∧ readingA i = .signed
      ∧ (readingB i = .signed ∨ readingB i = .ignored))
  ∧ readingA .neg = .signed
  ∧ ∀ i ∈ [Instr.lsl, .lsr, .rol, .ror, .asr], readingB i = .amount

/-- R36, R38 and 95_test_vectors.md section 2.7: decoding and encoding agree in both directions, on the port's code
and on the table's word with any number of bits that holds it. -/
def Obligations.DecodeAndEncodeAgree : Prop :=
  (∀ c i, decode c = .ok i ↔ encode i = c)
  ∧ (∀ i j, encode i = encode j → i = j)
  ∧ (∀ c, (selectOf c).wellFormed = true ↔ ∃ i, decode c = .ok i)
  ∧ ∀ i nbits, 6 ≤ nbits → decodeTableWord nbits (encode i).toNat = some i

/-! ## The machine as a whole -/

/-- R2, R32: a step is the operation that the `op` port decodes to, with nothing around it. -/
def Obligations.StepRunsTheDecodedOperation : Prop :=
  ∀ (s : State) (i : Instr), decode s.op = .ok i → step s = exec i s

/-- R120: every one of the 27 operations, with no condition on the state, answers every pair of operands with a result
and both flags; no input port is driven. The value of each response is stated by operation below. -/
def Obligations.EveryOperationAnswersEveryOperandPair : Prop :=
  ∀ (i : Instr) (s : State) (a b : Word),
    exec i { s with a := a, b := b }
      = .next { s with a := a, b := b, result := (alu i a b).result, overflow := (alu i a b).overflow,
                       divideByZero := (alu i a b).divideByZero }

/-- R12: two states with the same request on their inputs have the same outcome, whatever their outputs hold. -/
def Obligations.ResponseDependsOnRequestOnly : Prop :=
  ∀ s s' : State, s.request = s'.request →
    (∃ r, step s = .refused r ∧ step s' = .refused r)
    ∨ ∃ t t', step s = .next t ∧ step s' = .next t' ∧ t.response = t'.response

/-- R131: repeating a request gives the same response. -/
def Obligations.RepeatedRequestRepeatsTheResponse : Prop :=
  ∀ s t : State, step s = .next t → step t = .next t

/-- R139: after any sequence of defined requests, from any state, the response is that of the last request. -/
def Obligations.AnyRequestMayFollowAnyOther : Prop :=
  ∀ (s : State) (rs : List Request) (r : Request), (∀ q ∈ rs ++ [r], ∃ i, decode q.op = .ok i) →
    ∃ t i, serve s (rs ++ [r]) = .next t ∧ decode r.op = .ok i ∧ t.request = r ∧ t.response = alu i r.a r.b

/-- The model's own `serve` (log entries 14 and 3): a sequence of requests is refused exactly when one of its codes is
reserved. R124 refuses the one evaluation; that `serve` then ends the whole sequence is the model's choice, and the
block, which holds nothing, answers the next defined request as ever (R139). -/
def Obligations.SequenceRefusedExactlyOnReservedCode : Prop :=
  ∀ (s : State) (rs : List Request),
    (∃ c why, serve s rs = .refused (.reservedCode c why)) ↔ ∃ q ∈ rs, ∃ why, decode q.op = .error why

/-- R130 (the spec's decision D24): a step of one copy of the block changes no other copy, and the steps of two copies
commute. -/
def Obligations.CopiesAreIndependent : Prop :=
  (∀ (blocks : List State) (j : Nat) (s t : State), blocks[j]? = some s → step s = .next t →
    ∃ after, stepAt blocks j = .next after ∧ after[j]? = some t ∧ after.length = blocks.length
      ∧ ∀ k, k ≠ j → after[k]? = blocks[k]?)
  ∧ ∀ (blocks : List State) (j k : Nat) (x y : List State), j ≠ k →
      stepAt blocks j = .next x → stepAt blocks k = .next y →
      ∃ z, stepAt x k = .next z ∧ stepAt y j = .next z

/-- R123 and R101(d), the latter marked "derived" by the spec: every step keeps that at most one flag is 1 and that a
divide-by-zero flag of 1 comes with the result 0. -/
def Obligations.StepKeepsFlagsConsistent : Prop :=
  ∀ s t : State, FlagsConsistent s → step s = .next t → FlagsConsistent t

/-- R135 (the spec's decision D16): every step leaves the outputs the response to the request on the inputs, and
changes no input. -/
def Obligations.StepSettlesTheOutputs : Prop :=
  ∀ s t : State, step s = .next t → Settled t ∧ t.request = s.request

/-- The state `State.reset` satisfies both conditions above. The port values of that state are the model's choice (log
entry 2); that the outputs are the response to the inputs is R135's. -/
def Obligations.ResetIsSettledAndConsistent : Prop :=
  Settled State.reset ∧ FlagsConsistent State.reset ∧ step State.reset = .next State.reset

/-- R13, its table, marked "derived" by the spec: which operation sets which flag, and when; every other flag is 0. -/
def Obligations.FlagsAsTabulated : Prop :=
  ∀ (i : Instr) (s : State), ∃ t, exec i s = .next t
    ∧ (t.overflow = true ↔ OverflowSet i s.a s.b) ∧ (t.divideByZero = true ↔ DivideByZeroSet i s.b)

/-- R37 (the spec's decision D6, log entry 10): the response of a unary operation does not depend on `b`. -/
def Obligations.UnaryOperationsIgnoreB : Prop :=
  ∀ i ∈ unaryOperations, ∀ (s : State) (b1 b2 : Word),
    ∃ t1 t2, exec i { s with b := b1 } = .next t1 ∧ exec i { s with b := b2 } = .next t2
      ∧ t1.response = t2.response

/-! ## The codec -/

/-- R51: `toBits` fails outside the range of the mode, and otherwise gives the two's-complement pattern; where both
modes accept a value they give the same pattern. -/
def Obligations.ToBitsEncodesItsRange : Prop :=
  ∀ (value : Int) (width : Nat), 0 < width →
    ((value < 0 ∨ value > 2 ^ width - 1) → ∃ e, toBits value width .unsigned = .error e)
    ∧ (0 ≤ value ∧ value ≤ 2 ^ width - 1 →
        ∃ v, toBits value width .unsigned = .ok v ∧ fromBitsUnsigned v = value)
    ∧ ((value < -2 ^ (width - 1) ∨ value > 2 ^ (width - 1) - 1) → ∃ e, toBits value width .signed = .error e)
    ∧ (-2 ^ (width - 1) ≤ value ∧ value ≤ 2 ^ (width - 1) - 1 →
        ∃ v, toBits value width .signed = .ok v ∧ fromBitsUnsigned v = value % 2 ^ width)
    ∧ (0 ≤ value ∧ value ≤ 2 ^ (width - 1) - 1 → toBits value width .unsigned = toBits value width .signed)

/-- R24, R52, R53: the bit order of a Word, and its two readings as the sums the rules print. -/
def Obligations.WordReadingsAreTheCodecsSums : Prop :=
  ∀ w : Word,
    (∀ i, i < 64 → vectorBit w i = w.getLsbD (63 - i))
    ∧ fromBitsUnsigned w = unsignedOf w
    ∧ unsignedOf w = ((List.range 64).map fun k => if w.getLsbD k then (2 : Int) ^ k else 0).sum
    ∧ 0 ≤ unsignedOf w ∧ unsignedOf w ≤ 2 ^ 64 - 1
    ∧ fromBitsSigned w = signedOf w
    ∧ signedOf w = (if w.getLsbD 63 then -(2 : Int) ^ 63 else 0)
        + ((List.range 63).map fun k => if w.getLsbD k then (2 : Int) ^ k else 0).sum
    ∧ -2 ^ 63 ≤ signedOf w ∧ signedOf w ≤ 2 ^ 63 - 1

/-- R54: `trunc64` is the residue modulo 2^64, and `truncate` that residue read as signed. -/
def Obligations.TruncationIsTheResidue : Prop :=
  ∀ z : Int, unsignedOf (trunc64 z) = z % 2 ^ 64 ∧ truncate z = signedOf (trunc64 z)
    ∧ truncate z = if z % 2 ^ 64 < 2 ^ 63 then z % 2 ^ 64 else z % 2 ^ 64 - 2 ^ 64

/-- R55 and R56, (a) to (g); R55 and (d) to (g) are marked "derived" by the spec. -/
def Obligations.CodecLaws : Prop :=
  (∀ x : Int, truncate (truncate x) = truncate x)
  ∧ (∀ w : Word, ∃ v, toBits (signedOf w) 64 .signed = .ok v ∧ fromBitsSigned v = signedOf w)
  ∧ (∀ w : Word, ∃ v, toBits (unsignedOf w) 64 .unsigned = .ok v ∧ fromBitsUnsigned v = unsignedOf w)
  ∧ (∀ w : Word, unsignedOf w - signedOf w = 2 ^ 64 * (if w.getLsbD 63 then 1 else 0))
  ∧ (∀ z : Int, truncate z = z ↔ -2 ^ 63 ≤ z ∧ z ≤ 2 ^ 63 - 1)
  ∧ (∀ z : Int, unsignedOf (trunc64 z) = z ↔ 0 ≤ z ∧ z ≤ 2 ^ 64 - 1)
  ∧ (∀ z1 z2 : Int, trunc64 z1 = trunc64 z2 ↔ z1 % 2 ^ 64 = z2 % 2 ^ 64)
  ∧ ∀ w : Word, unsignedOf w = if 0 ≤ signedOf w then signedOf w else signedOf w + 2 ^ 64

/-- R57 (for the unsigned divisions the spec's decision D7): overflow is 1 exactly when the exact result does not fit
the operation's own reading. -/
def Obligations.OverflowIsALostExactResult : Prop :=
  ∀ z : Int,
    (overflowIn .signed z = true ↔ signedOf (trunc64 z) ≠ z)
    ∧ (overflowIn .signed z = true ↔ z < minSigned ∨ z > maxSigned)
    ∧ (overflowIn .unsigned z = true ↔ unsignedOf (trunc64 z) ≠ z)
    ∧ (overflowIn .unsigned z = true ↔ z < 0 ∨ z > maxUnsigned)

/-! ## Logical operations -/

/-- R60 to R66: the six binary logical operations, by their truth tables. -/
def Obligations.BinaryLogicalOperationsActBitwise : Prop :=
  (decode 0x00#6 = .ok .and ∧ ActsBitwise .and fun x y => x && y)
  ∧ (decode 0x02#6 = .ok .or ∧ ActsBitwise .or fun x y => x || y)
  ∧ (decode 0x04#6 = .ok .nor ∧ ActsBitwise .nor fun x y => !(x || y))
  ∧ (decode 0x06#6 = .ok .xor ∧ ActsBitwise .xor fun x y => x != y)
  ∧ (decode 0x08#6 = .ok .nand ∧ ActsBitwise .nand fun x y => !(x && y))
  ∧ (decode 0x0A#6 = .ok .xnor ∧ ActsBitwise .xnor fun x y => x == y)

/-- R67: NOT inverts each bit of `a`. -/
def Obligations.NotActsBitwise : Prop :=
  decode 0x0C#6 = .ok .not ∧ ActsBitwise .not fun x _ => !x

/-- The spec's own inferences in R67 and R81 (each marked "derived" there): `s(NOT(x)) = -s(x) - 1`, NEG gives the
result of `ADDS(NOT(x), 1)`, and NEG twice gives `x` back, `MIN` included. -/
def Obligations.ComplementAndNegate : Prop :=
  ∀ a b : Word,
    signedOf (alu .not a b).result = -signedOf a - 1
    ∧ (alu .neg a b).result = (alu .adds (alu .not a b).result 1#64).result
    ∧ (alu .neg (alu .neg a b).result b).result = a

/-! ## Shifts and rotates -/

/-- R71, R72: LSL, as its pseudocode gives each result bit. -/
def Obligations.LogicalShiftLeftMovesBits : Prop :=
  decode 0x10#6 = .ok .lsl ∧ MovesBits .lsl fun a n k =>
    if n ≥ 64 ∨ n ≤ -64 then false else bitOr0 a ((k : Int) - n)

/-- R71, R73: LSR, as its pseudocode gives each result bit. -/
def Obligations.LogicalShiftRightMovesBits : Prop :=
  decode 0x12#6 = .ok .lsr ∧ MovesBits .lsr fun a n k =>
    if n ≥ 64 ∨ n ≤ -64 then false else bitOr0 a ((k : Int) + n)

/-- R74: ROR, `result[j] = a[(j + n mod 64) mod 64]`. -/
def Obligations.RotateRightMovesBits : Prop :=
  decode 0x16#6 = .ok .ror ∧ MovesBits .ror fun a n j => a.getLsbD ((j + (n % 64).toNat) % 64)

/-- R75: ROL, `result[j] = a[(j + (-n) mod 64) mod 64]`, the same as `a[(j - n) mod 64]`. -/
def Obligations.RotateLeftMovesBits : Prop :=
  decode 0x14#6 = .ok .rol ∧ (MovesBits .rol fun a n j => a.getLsbD ((j + ((-n) % 64).toNat) % 64))
  ∧ MovesBits .rol fun a n j => a.getLsbD (((j : Int) - n) % 64).toNat

/-- R76: ASR, its five cases as the pseudocode gives each result bit. -/
def Obligations.ArithmeticShiftRightMovesBits : Prop :=
  decode 0x18#6 = .ok .asr ∧ MovesBits .asr fun a n k =>
    if n = 0 then a.getLsbD k
    else if n ≥ 64 then a.getLsbD 63
    else if n ≤ -64 then false
    else if n > 0 then (if (k : Int) + n ≤ 63 then a.getLsbD (k + n.toNat) else a.getLsbD 63)
    else (if (k : Int) - (-n) ≥ 0 then a.getLsbD (k - (-n).toNat) else false)

/-- The spec's own inferences in R72, R73, R74 and R76 (each marked "derived" there, or following its pseudocode): the
shifts as arithmetic on the value of the operand, and the rotates as reading the low six bits of the amount only. -/
def Obligations.ShiftsAreArithmeticOnTheValue : Prop :=
  ∀ a b : Word,
    (0 ≤ signedOf b → signedOf b ≤ 63 →
      (alu .lsl a b).result = trunc64 (unsignedOf a * 2 ^ (signedOf b).toNat)
      ∧ unsignedOf (alu .lsr a b).result = Int.fdiv (unsignedOf a) (2 ^ (signedOf b).toNat))
    ∧ (-63 ≤ signedOf b → signedOf b ≤ -1 →
      unsignedOf (alu .lsl a b).result = Int.fdiv (unsignedOf a) (2 ^ (-signedOf b).toNat)
      ∧ (alu .lsr a b).result = trunc64 (unsignedOf a * 2 ^ (-signedOf b).toNat))
    ∧ (0 ≤ signedOf b → signedOf (alu .asr a b).result = Int.fdiv (signedOf a) (2 ^ (signedOf b).toNat))
    ∧ (signedOf b % 64).toNat = (b.extractLsb' 0 6).toNat
    ∧ ∀ b' : Word, b'.extractLsb' 0 6 = b.extractLsb' 0 6 →
      alu .ror a b' = alu .ror a b ∧ alu .rol a b' = alu .rol a b

/-- R77, (a) to (h); (d) to (h) are the spec's own inferences. -/
def Obligations.ShiftRotateLaws : Prop :=
  (∀ x n n' : Word, signedOf n' = -signedOf n →
    (alu .lsr x n).result = (alu .lsl x n').result ∧ (alu .rol x n).result = (alu .ror x n').result)
  ∧ (∀ x n : Word, signedOf n = minSigned → (alu .lsr x n).result = 0#64 ∧ (alu .rol x n).result = x)
  ∧ (∀ x n : Word, (alu .ror (alu .rol x n).result n).result = x)
  ∧ (∀ x n : Word, 0 < signedOf n → signedOf n < 64 →
      ∀ k, 64 - signedOf n ≤ (k : Nat) → k < 64 → (alu .asr x n).result.getLsbD k = x.getLsbD 63)
  ∧ (∀ x n : Word, (alu .ror x n).result = (alu .ror x (trunc64 (signedOf n % 64))).result
      ∧ (alu .rol x n).result = (alu .ror x (trunc64 ((64 - signedOf n % 64) % 64))).result)
  ∧ (∀ x n : Word, 1 ≤ signedOf n → signedOf n ≤ 63 →
      (alu .rol x n).result
        = (alu .or (alu .lsl x n).result (alu .lsr x (trunc64 (64 - signedOf n))).result).result)
  ∧ (∀ x n : Word, x.getLsbD 63 = false → 0 ≤ signedOf n → (alu .asr x n).result = (alu .lsr x n).result)
  ∧ (∀ x n : Word, signedOf n < 0 → (alu .asr x n).result = (alu .lsr x n).result)
  ∧ (∀ x n n' : Word, signedOf n < 0 → signedOf n' = -signedOf n →
      (alu .asr x n).result = (alu .lsl x n').result)
  ∧ ∀ x n : Word, 0 ≤ signedOf n → signedOf n ≤ 63 →
      (alu .lsl x n).result = (alu .mulu x (alu .lsl 1#64 n).result).result

/-! ## Negate, add, subtract, multiply -/

/-- R81: NEG; the only overflow is at `MIN`, which is returned unchanged. -/
def Obligations.NegateNegates : Prop :=
  decode 0x20#6 = .ok .neg
  ∧ (∀ s : State, exec .neg s = .next { s with
      result := trunc64 (-signedOf s.a), overflow := decide (signedOf s.a = minSigned), divideByZero := false })
  ∧ ∀ a b : Word, signedOf a = minSigned → (alu .neg a b).result = a

/-- R82: ADDU. -/
def Obligations.AddUnsignedAdds : Prop :=
  decode 0x22#6 = .ok .addu ∧ ∀ s : State, exec .addu s = .next { s with
    result := trunc64 (unsignedOf s.a + unsignedOf s.b),
    overflow := decide (unsignedOf s.a + unsignedOf s.b > maxUnsigned), divideByZero := false }

/-- R83: ADDS. -/
def Obligations.AddSignedAdds : Prop :=
  decode 0x23#6 = .ok .adds ∧ ∀ s : State, exec .adds s = .next { s with
    result := trunc64 (signedOf s.a + signedOf s.b),
    overflow := decide (signedOf s.a + signedOf s.b < minSigned ∨ signedOf s.a + signedOf s.b > maxSigned),
    divideByZero := false }

/-- R84: SUBU; overflow is the borrow, the spec's own reading of its source (D8, log entry 15). -/
def Obligations.SubtractUnsignedSubtracts : Prop :=
  decode 0x24#6 = .ok .subu ∧ ∀ s : State, exec .subu s = .next { s with
    result := trunc64 (unsignedOf s.a - unsignedOf s.b),
    overflow := decide (unsignedOf s.a - unsignedOf s.b < 0), divideByZero := false }

/-- R85: SUBS. -/
def Obligations.SubtractSignedSubtracts : Prop :=
  decode 0x25#6 = .ok .subs ∧ ∀ s : State, exec .subs s = .next { s with
    result := trunc64 (signedOf s.a - signedOf s.b),
    overflow := decide (signedOf s.a - signedOf s.b < minSigned ∨ signedOf s.a - signedOf s.b > maxSigned),
    divideByZero := false }

/-- R86, (a) to (f), marked "derived" by the spec. -/
def Obligations.AddSubtractLaws : Prop :=
  (∀ a b : Word, (alu .addu a b).result = (alu .adds a b).result
    ∧ (alu .subu a b).result = (alu .subs a b).result)
  ∧ (∀ a b : Word, (alu .addu a b).overflow = (unsignedOf a + unsignedOf b).toNat.testBit 64
      ∧ ((alu .subu a b).overflow = true ↔ unsignedOf a < unsignedOf b))
  ∧ (∀ a b : Word, alu .neg a b = alu .subs 0#64 a)
  ∧ (∀ a b c : Word, (alu .subs a b).result = (alu .adds a (alu .neg b c).result).result)
  ∧ (∀ c : Word, (alu .subs 0#64 (trunc64 minSigned)).overflow = true
      ∧ (alu .neg (trunc64 minSigned) c).overflow = true
      ∧ (alu .adds 0#64 (alu .neg (trunc64 minSigned) c).result).overflow = false)
  ∧ (∀ i ∈ [Instr.neg, .addu, .adds, .subu, .subs], ∀ a b : Word, (alu i a b).divideByZero = false)
  ∧ ∀ a b : Word, (alu .addu a b).overflow = true ↔ unsignedOf a + unsignedOf b > 2 ^ 64 - 1

/-- R90: MULU. -/
def Obligations.MultiplyUnsignedMultiplies : Prop :=
  decode 0x26#6 = .ok .mulu ∧ ∀ s : State, exec .mulu s = .next { s with
    result := trunc64 (unsignedOf s.a * unsignedOf s.b),
    overflow := decide (unsignedOf s.a * unsignedOf s.b > maxUnsigned), divideByZero := false }

/-- R91: MULS. -/
def Obligations.MultiplySignedMultiplies : Prop :=
  decode 0x27#6 = .ok .muls ∧ ∀ s : State, exec .muls s = .next { s with
    result := trunc64 (signedOf s.a * signedOf s.b),
    overflow := decide (signedOf s.a * signedOf s.b < minSigned ∨ signedOf s.a * signedOf s.b > maxSigned),
    divideByZero := false }

/-- The spec's own inferences in R83, R85 and R91 (each marked "derived" there): the sign-bit forms of the signed
overflows, and that of MULS as a 128-bit product that is not the sign extension of its low half. -/
def Obligations.SignBitsTellSignedOverflow : Prop :=
  ∀ a b : Word,
    ((alu .adds a b).overflow = true ↔
      a.getLsbD 63 = b.getLsbD 63 ∧ (alu .adds a b).result.getLsbD 63 ≠ a.getLsbD 63)
    ∧ ((alu .subs a b).overflow = true ↔
      a.getLsbD 63 ≠ b.getLsbD 63 ∧ (alu .subs a b).result.getLsbD 63 ≠ a.getLsbD 63)
    ∧ ((alu .muls a b).overflow = true ↔
      BitVec.ofInt 128 (signedOf a * signedOf b) ≠ (alu .muls a b).result.signExtend 128)

/-- R92, (a) to (d), marked "derived" by the spec. -/
def Obligations.MultiplyLaws : Prop :=
  (∀ a b : Word, (alu .mulu a b).result = (alu .muls a b).result)
  ∧ (∀ x y : Bool, ∃ a b : Word, (alu .mulu a b).overflow = x ∧ (alu .muls a b).overflow = y)
  ∧ (∀ a b : Word, (alu .mulu a b).divideByZero = false ∧ (alu .muls a b).divideByZero = false)
  ∧ (∀ a b : Word, (alu .mulu a b).overflow = false →
      unsignedOf (alu .mulu a b).result = unsignedOf a * unsignedOf b)
  ∧ ∀ a b : Word, (alu .muls a b).overflow = false →
      signedOf (alu .muls a b).result = signedOf a * signedOf b

/-! ## Divide and modulo -/

/-- The zero test of R95: the zero divisor is answered first, whatever the dividend, by all four operations. -/
def Obligations.ZeroDivisorComesFirst : Prop :=
  ∀ i ∈ [Instr.divu, .divs, .modu, .mods], ∀ s : State,
    (s.b = 0#64 → exec i s = .next { s with result := 0#64, overflow := false, divideByZero := true })
    ∧ (s.b ≠ 0#64 → ∃ t, exec i s = .next t ∧ t.divideByZero = false)

/-- R96: DIVU, its overflow never 1 in the reading R95 decides for (D7, log entry 5). -/
def Obligations.DivideUnsignedDivides : Prop :=
  decode 0x28#6 = .ok .divu ∧ ∀ s : State, exec .divu s = .next (
    if unsignedOf s.b = 0 then { s with result := 0#64, overflow := false, divideByZero := true }
    else { s with result := trunc64 (Int.fdiv (unsignedOf s.a) (unsignedOf s.b)), overflow := false,
                  divideByZero := false })

/-- R97: DIVS, floor division; the only overflow is `MIN / -1`. -/
def Obligations.DivideSignedDivides : Prop :=
  decode 0x29#6 = .ok .divs
  ∧ (∀ s : State, exec .divs s = .next (
      if signedOf s.b = 0 then { s with result := 0#64, overflow := false, divideByZero := true }
      else { s with result := trunc64 (Int.fdiv (signedOf s.a) (signedOf s.b)),
                    overflow := decide (Int.fdiv (signedOf s.a) (signedOf s.b) > maxSigned),
                    divideByZero := false }))
  ∧ ∀ a b : Word, (alu .divs a b).overflow = true ↔ signedOf a = minSigned ∧ signedOf b = -1

/-- R98: MODU, its overflow never 1 in the reading R95 decides for (D7, log entry 5). -/
def Obligations.ModuloUnsignedTakesTheRemainder : Prop :=
  decode 0x2A#6 = .ok .modu ∧ ∀ s : State, exec .modu s = .next (
    if unsignedOf s.b = 0 then { s with result := 0#64, overflow := false, divideByZero := true }
    else { s with result := trunc64 (unsignedOf s.a % unsignedOf s.b), overflow := false, divideByZero := false })

/-- R99: MODS, floor modulo, never an overflow. -/
def Obligations.ModuloSignedTakesTheRemainder : Prop :=
  decode 0x2B#6 = .ok .mods
  ∧ (∀ s : State, exec .mods s = .next (
      if signedOf s.b = 0 then { s with result := 0#64, overflow := false, divideByZero := true }
      else { s with result := trunc64 (Int.fmod (signedOf s.a) (signedOf s.b)), overflow := false,
                    divideByZero := false }))
  ∧ ∀ a b : Word, signedOf b ≠ 0 →
      signedOf (alu .mods a b).result = signedOf a - signedOf b * Int.fdiv (signedOf a) (signedOf b)

/-- R100, marked "derived" by the spec: signed divide and modulo against truncating division, at every sign
combination. -/
def Obligations.FloorDivisionAgainstTruncating : Prop :=
  ∀ a b : Word, b ≠ 0#64 →
    let q := Int.tdiv (signedOf a) (signedOf b)
    let r := Int.tmod (signedOf a) (signedOf b)
    ((r = 0 ∨ (signedOf a < 0 ↔ signedOf b < 0)) →
      (alu .divs a b).result = trunc64 q ∧ (alu .mods a b).result = trunc64 r)
    ∧ ((r ≠ 0 ∧ ¬(signedOf a < 0 ↔ signedOf b < 0)) →
      (alu .divs a b).result = trunc64 (q - 1) ∧ (alu .mods a b).result = trunc64 (r + signedOf b))

/-- R101, (a) to (f), marked "derived" by the spec. -/
def Obligations.DivideModuloLaws : Prop :=
  (∀ a b : Word, b ≠ 0#64 →
    unsignedOf a = unsignedOf (alu .divu a b).result * unsignedOf b + unsignedOf (alu .modu a b).result
    ∧ unsignedOf (alu .modu a b).result < unsignedOf b)
  ∧ (∀ a b : Word, b ≠ 0#64 → ¬(signedOf a = minSigned ∧ signedOf b = -1) →
      signedOf a = signedOf (alu .divs a b).result * signedOf b + signedOf (alu .mods a b).result)
  ∧ (∀ a b : Word, signedOf a = minSigned → signedOf b = -1 →
      (signedOf (alu .divs a b).result * signedOf b + signedOf (alu .mods a b).result) % 2 ^ 64
        = signedOf a % 2 ^ 64)
  ∧ (∀ a b : Word, (alu .mods a b).result = 0#64 ∨ (alu .mods a b).result.getLsbD 63 = b.getLsbD 63)
  ∧ (∀ i ∈ [Instr.divu, .divs, .modu, .mods], ∀ a b : Word,
      ¬((alu i a b).overflow = true ∧ (alu i a b).divideByZero = true)
      ∧ ((alu i a b).divideByZero = true → (alu i a b).result = 0#64))
  ∧ (∀ i ∈ [Instr.divu, .divs, .modu, .mods], ∀ a : Word, alu i a 0#64 = ⟨0#64, false, true⟩)
  ∧ ∀ a b : Word, a.getLsbD 63 = false → b.getLsbD 63 = false →
      alu .divs a b = alu .divu a b ∧ alu .mods a b = alu .modu a b

/-- D7 (92_eei_decisions.md): the two readings in which the overflow of DIVU and MODU could be compared give the same
result and the same divide-by-zero flag, and differ in `overflow` exactly where the quotient or remainder is at least
`2^63`. The model's operations take the reading R95 decides for (log entry 5). -/
def Obligations.UnsignedDivisionOverflowReadings : Prop :=
  ∀ a b : Word,
    (divuIn .signed a b).result = (divuIn .unsigned a b).result
    ∧ (divuIn .signed a b).divideByZero = (divuIn .unsigned a b).divideByZero
    ∧ (divuIn .signed a b ≠ divuIn .unsigned a b ↔ 2 ^ 63 ≤ unsignedOf (divuIn .unsigned a b).result)
    ∧ (moduIn .signed a b).result = (moduIn .unsigned a b).result
    ∧ (moduIn .signed a b).divideByZero = (moduIn .unsigned a b).divideByZero
    ∧ (moduIn .signed a b ≠ moduIn .unsigned a b ↔ 2 ^ 63 ≤ unsignedOf (moduIn .unsigned a b).result)

/-! ## Integer to floating point -/

/-- R26, R111: U2F, by the algorithm of R110, marked "derived" by the spec, with one rounding (D13, log entry 6); the
pattern lies in the low half and the high half is 0. -/
def Obligations.UnsignedToBinary32 : Prop :=
  decode 0x30#6 = .ok .u2f ∧ ConvertsTo .u2f binary32 .unsigned
  ∧ ∀ a b : Word, (alu .u2f a b).result.toNat ≤ 0x5F800000

/-- R26, R112: S2F, by the algorithm of R110, marked "derived" by the spec, with one rounding (D13, log entry 6); the
high half is 0 for a negative operand too. -/
def Obligations.SignedToBinary32 : Prop :=
  decode 0x31#6 = .ok .s2f ∧ ConvertsTo .s2f binary32 .signed
  ∧ (∀ a b : Word, (alu .s2f a b).result.toNat < 2 ^ 32)
  ∧ ∀ a b : Word, signedOf a < 0 ↔ (alu .s2f a b).result.getLsbD 31 = true

/-- R25, R113: U2D, by the algorithm of R110, marked "derived" by the spec. -/
def Obligations.UnsignedToBinary64 : Prop :=
  decode 0x32#6 = .ok .u2d ∧ ConvertsTo .u2d binary64 .unsigned

/-- R25, R114: S2D, by the algorithm of R110, marked "derived" by the spec; the sign bit is 1 exactly for a negative
operand. -/
def Obligations.SignedToBinary64 : Prop :=
  decode 0x33#6 = .ok .s2d ∧ ConvertsTo .s2d binary64 .signed
  ∧ ∀ a b : Word, (alu .s2d a b).result.getLsbD 63 = true ↔ signedOf a < 0

/-- R107 (the spec's decision D10): the reinterpreter changes no bit of any pattern, and pads a binary32 pattern with
zeros. -/
def Obligations.ReinterpreterChangesNoBit : Prop :=
  (∀ f : BitVec 32, (∀ k, k < 32 → (reinterpret32 f).getLsbD k = f.getLsbD k)
    ∧ ∀ k, 32 ≤ k → (reinterpret32 f).getLsbD k = false)
  ∧ ∀ (d : BitVec 64) (k : Nat), (reinterpret64 d).getLsbD k = d.getLsbD k

/-- R108 (the spec's decision D13, log entry 6): each conversion gives the representable value nearest to the integer,
a tie going to the even fraction, and rounds the integer once, directly to the target format. The representable values
are those `valueOf` gives, the normal numbers and the zeros of R109; that it gives the other kinds no value is log
entry 7. -/
def Obligations.ConversionRoundsToNearestTiesToEven : Prop :=
  (∀ f ∈ [binary32, binary64], ∀ v : Int, ConvertibleRange v →
    ∃ y : ℚ, valueOf f (convert f v) = some y
      ∧ ∀ (x : Nat) (z : ℚ), valueOf f x = some z →
          |y - v| ≤ |z - v|
          ∧ (|y - v| = |z - v| → z ≠ y → fractionField f (convert f v) % 2 = 0))
  ∧ ∀ v : Int, ConvertibleRange v →
      (toBinary32 Config.floatRounding v).toNat = convert binary32 v ∧ (toBinary64 v).toNat = convert binary64 v

/-- R115, marked "derived" by the spec, by the kinds of log entry 7: no integer converts to an infinity, a NaN, a
subnormal or a negative zero; the exponent field stays within 191 in binary32 and 1087 in binary64. -/
def Obligations.ConversionGivesNormalOrPositiveZero : Prop :=
  ∀ v : Int, ConvertibleRange v →
    (∀ f ∈ [binary32, binary64], kindOf f (convert f v) = (if v = 0 then .positiveZero else .normal))
    ∧ (v = 0 → convert binary32 v = 0 ∧ convert binary64 v = 0)
    ∧ exponentField binary32 (convert binary32 v) ≤ 191
    ∧ exponentField binary64 (convert binary64 v) ≤ 1087

/-- R116, (a) to (f), marked "derived" by the spec; the value of a pattern in (d) and (e) is `valueOf`'s (log entry
7). -/
def Obligations.ConversionLaws : Prop :=
  (∀ a b : Word, a.getLsbD 63 = false → alu .u2f a b = alu .s2f a b ∧ alu .u2d a b = alu .s2d a b)
  ∧ (∀ a b : Word, ∀ k, 32 ≤ k →
      (alu .u2f a b).result.getLsbD k = false ∧ (alu .s2f a b).result.getLsbD k = false)
  ∧ (∀ a b : Word, (alu .u2d a b).result.getLsbD 63 = false
      ∧ (a ≠ 0#64 → (alu .s2d a b).result.getLsbD 63 = a.getLsbD 63))
  ∧ (∀ f ∈ [binary32, binary64], ∀ v1 v2 : Int, ConvertibleRange v1 → ConvertibleRange v2 → v1 ≤ v2 →
      ∃ y1 y2 : ℚ, valueOf f (convert f v1) = some y1 ∧ valueOf f (convert f v2) = some y2 ∧ y1 ≤ y2)
  ∧ (∀ f ∈ [binary32, binary64], ∀ v : Int, ConvertibleRange v →
      ∃ y : ℚ, valueOf f (convert f v) = some y
        ∧ (v ≠ 0 → |y - v| ≤ unitInLastPlace f (convert f v) / 2)
        ∧ ∀ q k : Nat, v.natAbs = q * 2 ^ k → q < 2 ^ f.precision → y = v)
  ∧ ∀ i ∈ [Instr.u2f, .s2f, .u2d, .s2d], ∀ a b : Word,
      (alu i a b).overflow = false ∧ (alu i a b).divideByZero = false

/-- D13 (92_eei_decisions.md): rounding once and rounding through binary64 agree on every integer of at most 53
significant bits, and differ on vector V-CVT-17. The model's operations round once (log entry 6). -/
def Obligations.TwoRoundingsAgreeUpTo53Bits : Prop :=
  (∀ (v : Int) (q k : Nat), v.natAbs = q * 2 ^ k → q < 2 ^ 53 → ConvertibleRange v →
    toBinary32 .viaBinary64 v = toBinary32 .direct v)
  ∧ toBinary32 .direct 0x8000008000000001 = 0x5F000001#32
  ∧ toBinary32 .viaBinary64 0x8000008000000001 = 0x5F000000#32
end

