-- ==== Sys2Proof/Laws/Codec.lean ====
section
/-! SUPPORT. The codec's value functions as facts about integers, and what the shared flag computations answer. -/

namespace Sys2Proof.Machine

theorem unsignedOf_nonneg (w : Word) : 0 ≤ unsignedOf w := by
  unfold unsignedOf; omega

theorem unsignedOf_le (w : Word) : unsignedOf w ≤ maxUnsigned := by
  unfold unsignedOf maxUnsigned; omega

theorem minSigned_le_signedOf (w : Word) : minSigned ≤ signedOf w := by
  have := BitVec.le_toInt w
  simpa [signedOf, minSigned] using this

theorem signedOf_le (w : Word) : signedOf w ≤ maxSigned := by
  have := BitVec.toInt_lt (x := w)
  unfold signedOf maxSigned
  omega

/-- The two readings differ by `2^64` where bit 63 is 1. -/
theorem signedOf_eq (w : Word) :
    signedOf w = if unsignedOf w ≤ maxSigned then unsignedOf w else unsignedOf w - (maxUnsigned + 1) := by
  unfold signedOf unsignedOf maxSigned maxUnsigned
  rw [BitVec.toInt_eq_toNat_cond]
  split <;> split <;> omega

theorem unsignedOf_trunc64_eq (z : Int) : unsignedOf (trunc64 z) = z % (maxUnsigned + 1) := by
  unfold unsignedOf trunc64 maxUnsigned
  rw [BitVec.toNat_ofInt]
  norm_num
  omega

theorem unsignedOf_injective {v w : Word} (h : unsignedOf v = unsignedOf w) : v = w := by
  apply BitVec.eq_of_toNat_eq
  unfold unsignedOf at h
  exact_mod_cast h

theorem unsignedOf_eq_zero_iff {w : Word} : unsignedOf w = 0 ↔ w = 0#64 :=
  ⟨fun h => unsignedOf_injective (by rw [h]; rfl), fun h => by rw [h]; rfl⟩

@[simp] theorem valueIn_unsigned (w : Word) : valueIn .unsigned w = unsignedOf w := rfl
@[simp] theorem valueIn_signed (w : Word) : valueIn .signed w = signedOf w := rfl

/-- Overflow in a mode: the truncated result read in that mode is not the exact one. -/
theorem overflowIn_iff (m : Signedness) (z : Int) : overflowIn m z = true ↔ valueIn m (trunc64 z) ≠ z := by
  simp [overflowIn]

@[simp] theorem clearFlags_result (w : Word) : (clearFlags w).result = w := rfl
@[simp] theorem clearFlags_overflow (w : Word) : (clearFlags w).overflow = false := rfl
@[simp] theorem clearFlags_divideByZero (w : Word) : (clearFlags w).divideByZero = false := rfl
@[simp] theorem arithmetic_result (m : Signedness) (z : Int) : (arithmetic m z).result = trunc64 z := rfl
@[simp] theorem arithmetic_overflow (m : Signedness) (z : Int) : (arithmetic m z).overflow = overflowIn m z := rfl
@[simp] theorem arithmetic_divideByZero (m : Signedness) (z : Int) : (arithmetic m z).divideByZero = false := rfl

/-- Everything `divide` can answer: the zero-divisor response, or an arithmetic one. -/
theorem divide_cases (m : Signedness) (d : Word) (z : Int) :
    (d = 0#64 ∧ divide m d z = zeroDivisor) ∨ (d ≠ 0#64 ∧ divide m d z = arithmetic m z) := by
  unfold divide
  split
  · exact .inl ⟨‹_›, rfl⟩
  · exact .inr ⟨‹_›, rfl⟩

end Sys2Proof.Machine
end

