-- ==== Sys2Proof/Laws/Float.lean ====
section
/-! SUPPORT. What rounding a magnitude and packing a pattern do, said once: the bounds of a rounded magnitude, which of
its two neighbours it is, and the fields of a converted pattern. -/

namespace Sys2Proof.Machine

theorem log2_bounds {m : Nat} (hm : 0 < m) : 2 ^ m.log2 ≤ m ∧ m < 2 ^ (m.log2 + 1) :=
  ⟨Nat.log2_self_le hm.ne', Nat.lt_log2_self⟩

/-- Dropping the bits below the leading `p` leaves a significand of exactly `p` bits. -/
theorem kept_bounds {p m sh : Nat} (hp : 2 ≤ p) (hm : 0 < m) (hsh : m.log2 = sh + (p - 1)) :
    2 ^ (p - 1) ≤ m / 2 ^ sh ∧ m / 2 ^ sh < 2 ^ p := by
  obtain ⟨h1, h2⟩ := log2_bounds hm
  have hpos : 0 < 2 ^ sh := by positivity
  rw [hsh] at h1 h2
  constructor
  · rw [Nat.le_div_iff_mul_le hpos, ← pow_add]
    rwa [Nat.add_comm sh] at h1
  · rw [Nat.div_lt_iff_lt_mul hpos, ← pow_add]
    rwa [show sh + (p - 1) + 1 = p + sh by omega] at h2

/-- A rounded magnitude has a significand of exactly `p` bits; its exponent is that of the leading 1, or one more after
a carry that leaves the least significand. -/
theorem roundMagnitude_bounds {p m : Nat} (hp : 2 ≤ p) (hm : 0 < m) :
    2 ^ (p - 1) ≤ (roundMagnitude p m).significand ∧ (roundMagnitude p m).significand < 2 ^ p
    ∧ ((roundMagnitude p m).exponent = m.log2
      ∨ ((roundMagnitude p m).exponent = m.log2 + 1 ∧ (roundMagnitude p m).significand = 2 ^ (p - 1))) := by
  obtain ⟨h1, h2⟩ := log2_bounds hm
  have hpp : 2 ^ (p - 1) < 2 ^ p := Nat.pow_lt_pow_right (by norm_num) (by omega)
  unfold roundMagnitude
  by_cases he : m.log2 ≤ p - 1
  · simp only [he, if_true]
    have hpos : 0 < 2 ^ (p - 1 - m.log2) := by positivity
    refine ⟨?_, ?_, .inl trivial⟩
    · calc 2 ^ (p - 1) = 2 ^ m.log2 * 2 ^ (p - 1 - m.log2) := by rw [← pow_add]; congr 1; omega
        _ ≤ m * 2 ^ (p - 1 - m.log2) := Nat.mul_le_mul_right _ h1
    · calc m * 2 ^ (p - 1 - m.log2) < 2 ^ (m.log2 + 1) * 2 ^ (p - 1 - m.log2) :=
            (Nat.mul_lt_mul_right hpos).2 h2
        _ = 2 ^ p := by rw [← pow_add]; congr 1; omega
  · obtain ⟨k1, k2⟩ := kept_bounds (sh := m.log2 - (p - 1)) hp hm (by omega)
    simp only [he, if_false]
    generalize m / 2 ^ (m.log2 - (p - 1)) = q at *
    generalize hk : (if m % 2 ^ (m.log2 - (p - 1)) > 2 ^ (m.log2 - (p - 1) - 1) ∨
      m % 2 ^ (m.log2 - (p - 1)) = 2 ^ (m.log2 - (p - 1) - 1) ∧ q % 2 = 1 then q + 1 else q) = kept
    have hkept : kept = q ∨ kept = q + 1 := by
      rw [← hk]; split
      · exact .inr rfl
      · exact .inl rfl
    by_cases hc : kept = 2 ^ p
    · rw [if_pos hc]; exact ⟨le_rfl, hpp, .inr ⟨rfl, rfl⟩⟩
    · rw [if_neg hc]; exact ⟨(by omega : 2 ^ (p - 1) ≤ kept), (by omega : kept < 2 ^ p), .inl rfl⟩

/-- Which value a rounded magnitude stands for, scaled by `2^(p-1)`: the magnitude itself, or the lower or the upper
neighbour that keeps `p` bits, the nearer one, a tie going to the even significand (R110). -/
theorem roundMagnitude_neighbour {p m : Nat} (hp : 2 ≤ p) (hm : 0 < m) :
    let r := roundMagnitude p m
    r.significand * 2 ^ r.exponent = m * 2 ^ (p - 1)
    ∨ ∃ sh, 1 ≤ sh ∧ m.log2 = sh + (p - 1) ∧ sh + (p - 1) ≤ r.exponent
      ∧ ((r.significand * 2 ^ r.exponent = m / 2 ^ sh * 2 ^ sh * 2 ^ (p - 1)
          ∧ m % 2 ^ sh ≤ 2 ^ (sh - 1) ∧ (m % 2 ^ sh = 2 ^ (sh - 1) → r.significand % 2 = 0))
        ∨ (r.significand * 2 ^ r.exponent = (m / 2 ^ sh + 1) * 2 ^ sh * 2 ^ (p - 1)
          ∧ 2 ^ (sh - 1) ≤ m % 2 ^ sh ∧ (m % 2 ^ sh = 2 ^ (sh - 1) → r.significand % 2 = 0))) := by
  intro r
  by_cases he : m.log2 ≤ p - 1
  · left
    have hr : r = { exponent := m.log2, significand := m * 2 ^ (p - 1 - m.log2) } := by
      simp only [r, roundMagnitude, he, if_true]
    rw [hr]
    show m * 2 ^ (p - 1 - m.log2) * 2 ^ m.log2 = _
    rw [mul_assoc, ← pow_add]
    congr 2
    omega
  · right
    refine ⟨m.log2 - (p - 1), by omega, by omega, ?_, ?_⟩
    · obtain h | ⟨h, -⟩ := (roundMagnitude_bounds hp hm).2.2 <;> (show _ ≤ (roundMagnitude p m).exponent; omega)
    · obtain ⟨sh, hsh⟩ : ∃ sh, sh = m.log2 - (p - 1) := ⟨_, rfl⟩
      have hlog : m.log2 = sh + (p - 1) := by omega
      rw [← hsh]
      obtain ⟨k1, k2⟩ := kept_bounds hp hm hlog
      have hr : r = (let kept := if m % 2 ^ sh > 2 ^ (sh - 1) ∨ (m % 2 ^ sh = 2 ^ (sh - 1) ∧ m / 2 ^ sh % 2 = 1)
            then m / 2 ^ sh + 1 else m / 2 ^ sh
          if kept = 2 ^ p then { exponent := m.log2 + 1, significand := 2 ^ (p - 1) }
          else { exponent := m.log2, significand := kept }) := by
        simp only [r, roundMagnitude, he, if_false, ← hsh]
      have he2 : 2 ^ m.log2 = 2 ^ sh * 2 ^ (p - 1) := by rw [hlog, pow_add]
      have hps : 2 ^ p = 2 * 2 ^ (p - 1) := by
        rw [← pow_succ']; congr 1; omega
      have heven : 2 ^ (p - 1) % 2 = 0 := by
        rw [show p - 1 = (p - 2) + 1 by omega, pow_succ]; omega
      by_cases hup : m % 2 ^ sh > 2 ^ (sh - 1) ∨ (m % 2 ^ sh = 2 ^ (sh - 1) ∧ m / 2 ^ sh % 2 = 1)
      · right
        simp only [hup, if_true] at hr
        by_cases hc : m / 2 ^ sh + 1 = 2 ^ p
        · rw [if_pos hc] at hr
          rw [hr, hc]
          refine ⟨?_, by omega, fun _ => heven⟩
          show 2 ^ (p - 1) * 2 ^ (m.log2 + 1) = _
          rw [pow_succ 2 m.log2, he2, hps]
          ring
        · rw [if_neg hc] at hr
          rw [hr]
          refine ⟨?_, by omega, fun h => ?_⟩
          · show (m / 2 ^ sh + 1) * 2 ^ m.log2 = _
            rw [he2]; ring
          · show (m / 2 ^ sh + 1) % 2 = 0
            omega
      · left
        simp only [hup, if_false] at hr
        rw [if_neg (by omega)] at hr
        rw [hr]
        refine ⟨?_, by omega, fun h => ?_⟩
        · show m / 2 ^ sh * 2 ^ m.log2 = _
          rw [he2]; ring
        · show m / 2 ^ sh % 2 = 0
          omega

/-- The three fields of a packed pattern (R109). -/
theorem pattern_fields (f : FloatFormat) {S E T : Nat} (hp : 1 ≤ f.precision) (hS : S < 2) (hE : E < 2 ^ f.expWidth)
    (hT : T < 2 ^ (f.precision - 1)) :
    signField f (S * 2 ^ (f.expWidth + f.precision - 1) + E * 2 ^ (f.precision - 1) + T) = S
    ∧ exponentField f (S * 2 ^ (f.expWidth + f.precision - 1) + E * 2 ^ (f.precision - 1) + T) = E
    ∧ fractionField f (S * 2 ^ (f.expWidth + f.precision - 1) + E * 2 ^ (f.precision - 1) + T) = T := by
  have hw : 2 ^ (f.expWidth + f.precision - 1) = 2 ^ f.expWidth * 2 ^ (f.precision - 1) := by
    rw [← pow_add]; congr 1; omega
  have hpos : 0 < 2 ^ (f.precision - 1) := by positivity
  have hx : S * 2 ^ (f.expWidth + f.precision - 1) + E * 2 ^ (f.precision - 1) + T
      = T + (S * 2 ^ f.expWidth + E) * 2 ^ (f.precision - 1) := by rw [hw]; ring
  have hdiv : (T + (S * 2 ^ f.expWidth + E) * 2 ^ (f.precision - 1)) / 2 ^ (f.precision - 1)
      = S * 2 ^ f.expWidth + E := by
    rw [Nat.add_mul_div_right _ _ hpos, Nat.div_eq_of_lt hT, Nat.zero_add]
  refine ⟨?_, ?_, ?_⟩
  · unfold signField
    rw [hx, hw, Nat.mul_comm (2 ^ f.expWidth), ← Nat.div_div_eq_div_mul, hdiv, Nat.add_comm,
      Nat.add_mul_div_right _ _ (by positivity), Nat.div_eq_of_lt hE, Nat.zero_add, Nat.mod_eq_of_lt hS]
  · unfold exponentField
    rw [hx, hdiv, Nat.add_comm, Nat.add_mul_mod_self_right, Nat.mod_eq_of_lt hE]
  · unfold fractionField
    rw [hx, Nat.add_mul_mod_self_right, Nat.mod_eq_of_lt hT]

end Sys2Proof.Machine
end

