-- ==== Sys2Proof/Laws/PerInstr.lean ====
section
/-! SUPPORT. A fact about each operation as syntax: its code is well formed, and the fields of the code have a mode bit
exactly where the operand table gives the operation a mode (R34). -/

namespace Sys2Proof.Laws.SelectFields

open Sys2Proof.Machine

abbrev Statement (i : Instr) : Prop :=
  i.wellFormed = true ∧ (selectOf (encode i)).hasMode = (modeOf i).isSome

theorem and : Statement .and := by decide
theorem or : Statement .or := by decide
theorem nor : Statement .nor := by decide
theorem xor : Statement .xor := by decide
theorem nand : Statement .nand := by decide
theorem xnor : Statement .xnor := by decide
theorem not : Statement .not := by decide
theorem lsl : Statement .lsl := by decide
theorem lsr : Statement .lsr := by decide
theorem rol : Statement .rol := by decide
theorem ror : Statement .ror := by decide
theorem asr : Statement .asr := by decide
theorem neg : Statement .neg := by decide
theorem addu : Statement .addu := by decide
theorem adds : Statement .adds := by decide
theorem subu : Statement .subu := by decide
theorem subs : Statement .subs := by decide
theorem mulu : Statement .mulu := by decide
theorem muls : Statement .muls := by decide
theorem divu : Statement .divu := by decide
theorem divs : Statement .divs := by decide
theorem modu : Statement .modu := by decide
theorem mods : Statement .mods := by decide
theorem u2f : Statement .u2f := by decide
theorem s2f : Statement .s2f := by decide
theorem u2d : Statement .u2d := by decide
theorem s2d : Statement .s2d := by decide

end Sys2Proof.Laws.SelectFields
end

