-- ==== Sys2Proof/Laws/State.lean ====
section
/-! SUPPORT. One lemma per field of State per update. -/

namespace Sys2Proof.Machine

@[simp] theorem State.answer_op (s : State) (r : Response) : (s.answer r).op = s.op := rfl
@[simp] theorem State.answer_a (s : State) (r : Response) : (s.answer r).a = s.a := rfl
@[simp] theorem State.answer_b (s : State) (r : Response) : (s.answer r).b = s.b := rfl
@[simp] theorem State.answer_result (s : State) (r : Response) : (s.answer r).result = r.result := rfl
@[simp] theorem State.answer_overflow (s : State) (r : Response) : (s.answer r).overflow = r.overflow := rfl
@[simp] theorem State.answer_divideByZero (s : State) (r : Response) :
    (s.answer r).divideByZero = r.divideByZero := rfl
@[simp] theorem State.answer_request (s : State) (r : Response) : (s.answer r).request = s.request := rfl
@[simp] theorem State.answer_response (s : State) (r : Response) : (s.answer r).response = r := rfl
@[simp] theorem State.answer_answer (s : State) (r q : Response) : (s.answer r).answer q = s.answer q := rfl
@[simp] theorem State.answer_self (s : State) : s.answer s.response = s := rfl

@[simp] theorem State.present_op (s : State) (r : Request) : (s.present r).op = r.op := rfl
@[simp] theorem State.present_a (s : State) (r : Request) : (s.present r).a = r.a := rfl
@[simp] theorem State.present_b (s : State) (r : Request) : (s.present r).b = r.b := rfl
@[simp] theorem State.present_result (s : State) (r : Request) : (s.present r).result = s.result := rfl
@[simp] theorem State.present_overflow (s : State) (r : Request) : (s.present r).overflow = s.overflow := rfl
@[simp] theorem State.present_divideByZero (s : State) (r : Request) :
    (s.present r).divideByZero = s.divideByZero := rfl
@[simp] theorem State.present_request (s : State) (r : Request) : (s.present r).request = r := rfl
@[simp] theorem State.present_response (s : State) (r : Request) : (s.present r).response = s.response := rfl
@[simp] theorem State.present_self (s : State) : s.present s.request = s := rfl

@[simp] theorem State.withFetchWord_op (s : State) (nbits w : Nat) :
    (s.withFetchWord nbits w).op = portCode nbits w := rfl
@[simp] theorem State.withFetchWord_a (s : State) (nbits w : Nat) : (s.withFetchWord nbits w).a = s.a := rfl
@[simp] theorem State.withFetchWord_b (s : State) (nbits w : Nat) : (s.withFetchWord nbits w).b = s.b := rfl
@[simp] theorem State.withFetchWord_response (s : State) (nbits w : Nat) :
    (s.withFetchWord nbits w).response = s.response := rfl

/-- Two states are equal when their requests and their responses are. -/
theorem State.ext_ports {s t : State} (hreq : s.request = t.request) (hres : s.response = t.response) : s = t := by
  cases s
  cases t
  simp only [State.request, State.response, Request.mk.injEq, Response.mk.injEq, State.mk.injEq] at *
  exact ⟨hreq.1, hreq.2.1, hreq.2.2, hres.1, hres.2.1, hres.2.2⟩

end Sys2Proof.Machine
end

