-- ==== Sys2Proof/Laws/Step.lean ====
section
/-! SUPPORT. What the meanings, the step and the host's operations can do, said once each. -/

namespace Sys2Proof.Machine

/-- A meaning answers the response of the block's function and changes nothing else. -/
theorem exec_eq (i : Instr) (s : State) : exec i s = .next (s.answer (alu i s.a s.b)) := by
  cases i <;> rfl

/-- A step is the meaning of the decoded operation, or the refusal of a reserved code. -/
theorem step_cases (s : State) :
    (∃ i, decode s.op = .ok i ∧ step s = .next (s.answer (alu i s.a s.b))) ∨
      (∃ why, decode s.op = .error why ∧ step s = .refused (.reservedCode s.op why)) := by
  unfold step
  cases h : decode s.op with
  | ok i => exact .inl ⟨i, rfl, exec_eq i s⟩
  | error why => exact .inr ⟨why, rfl, rfl⟩

/-- When a step answers a next state, it is the answer of the decoded operation. -/
theorem step_next {s t : State} (h : step s = .next t) :
    ∃ i, decode s.op = .ok i ∧ t = s.answer (alu i s.a s.b) := by
  obtain ⟨i, hi, hs⟩ | ⟨why, -, hs⟩ := step_cases s
  · rw [hs] at h
    exact ⟨i, hi, by injection h with h; exact h.symm⟩
  · rw [hs] at h
    exact absurd h (by simp)

theorem serve_nil (s : State) : serve s [] = .next s := rfl

/-- Serving a defined request first goes on from the state that holds its response. -/
theorem serve_cons {s : State} {r : Request} {i : Instr} (h : decode r.op = .ok i) (rs : List Request) :
    serve s (r :: rs) = serve ((s.present r).answer (alu i r.a r.b)) rs := by
  have hs : serveOne s r = .next ((s.present r).answer (alu i r.a r.b)) := by
    unfold serveOne step
    rw [show (s.present r).op = r.op from rfl, h]
    exact exec_eq i (s.present r)
  simp only [serve, hs]

end Sys2Proof.Machine
end

