-- ==== Sys2Proof/Tests/Slice0.lean ====
section
/-! SUPPORT. Named tests of the model, with expected values from spec/95_test_vectors.md and the tables of
30_encoding.md, and a witness for the hypotheses of every statement that has some. -/

namespace Sys2Proof.Tests

open Sys2Proof.Machine

/-- The response of one step from reset with a request on the input ports. -/
def respond (op : BitVec 6) (a b : Word) : Option Response :=
  match step (State.reset.present { op := op, a := a, b := b }) with
  | .next t => some t.response
  | .fault _ => none
  | .refused _ => none

/-! ## Decoding: the codes as R36 writes them, field by field -/

theorem test_decode_logical :
    decode 0b000000#6 = .ok .and ∧ decode 0b000010#6 = .ok .or ∧ decode 0b000100#6 = .ok .nor
    ∧ decode 0b000110#6 = .ok .xor ∧ decode 0b001000#6 = .ok .nand ∧ decode 0b001010#6 = .ok .xnor
    ∧ decode 0b001100#6 = .ok .not := ⟨rfl, rfl, rfl, rfl, rfl, rfl, rfl⟩

theorem test_decode_shift :
    decode 0b010000#6 = .ok .lsl ∧ decode 0b010010#6 = .ok .lsr ∧ decode 0b010100#6 = .ok .rol
    ∧ decode 0b010110#6 = .ok .ror ∧ decode 0b011000#6 = .ok .asr := ⟨rfl, rfl, rfl, rfl, rfl⟩

theorem test_decode_arithmetic :
    decode 0b100000#6 = .ok .neg ∧ decode 0b100010#6 = .ok .addu ∧ decode 0b100011#6 = .ok .adds
    ∧ decode 0b100100#6 = .ok .subu ∧ decode 0b100101#6 = .ok .subs ∧ decode 0b100110#6 = .ok .mulu
    ∧ decode 0b100111#6 = .ok .muls := ⟨rfl, rfl, rfl, rfl, rfl, rfl, rfl⟩

theorem test_decode_divide :
    decode 0b101000#6 = .ok .divu ∧ decode 0b101001#6 = .ok .divs ∧ decode 0b101010#6 = .ok .modu
    ∧ decode 0b101011#6 = .ok .mods := ⟨rfl, rfl, rfl, rfl⟩

theorem test_decode_conversion :
    decode 0b110000#6 = .ok .u2f ∧ decode 0b110001#6 = .ok .s2f ∧ decode 0b110010#6 = .ok .u2d
    ∧ decode 0b110011#6 = .ok .s2d := ⟨rfl, rfl, rfl, rfl⟩

/-- V-RES-1 to V-RES-8. -/
theorem test_decode_reserved :
    decode 0x01#6 = .error .mode ∧ decode 0x0E#6 = .error .function ∧ decode 0x11#6 = .error .mode
    ∧ decode 0x1A#6 = .error .function ∧ decode 0x21#6 = .error .mode ∧ decode 0x2C#6 = .error .function
    ∧ decode 0x34#6 = .error .function ∧ decode 0x3F#6 = .error .function :=
  ⟨rfl, rfl, rfl, rfl, rfl, rfl, rfl, rfl⟩

/-- R32: the fields of 0x2B (MODS) are class 10, function 101, mode 1. -/
theorem test_fields : selectOf 0x2B#6 = { cls := 0b10#2, fn := 0b101#3, mode := 0b1#1 } := by decide

theorem test_table_word : decodeTableWord 8 0x29 = some .divs ∧ decodeTableWord 8 0x2D = none := ⟨rfl, rfl⟩

theorem test_with_fetch_word :
    step (State.reset.withFetchWord 8 0x0C)
      = .next { State.reset with op := 0x0C#6, result := 0xFFFFFFFFFFFFFFFF#64 } := rfl

/-! ## WellFormed: an ill-formed term for each check -/

/-- Class 00 has no function 7 (R36, second table). -/
theorem test_ill_formed_function :
    ({ cls := 0#2, fn := 7#3, mode := 0#1 } : Select).functionAssigned = false
    ∧ ({ cls := 0#2, fn := 7#3, mode := 0#1 } : Select).wellFormed = false := by decide

/-- Negate, class 10 function 000, has no mode (R34). -/
theorem test_ill_formed_mode :
    ({ cls := 2#2, fn := 0#3, mode := 1#1 } : Select).functionAssigned = true
    ∧ ({ cls := 2#2, fn := 0#3, mode := 1#1 } : Select).modeAllowed = false
    ∧ ({ cls := 2#2, fn := 0#3, mode := 1#1 } : Select).wellFormed = false := by decide

theorem test_well_formed : Instr.wellFormed .mods = true ∧ Instr.wellFormed .and = true := by decide

/-! ## One step of each operation, from the vectors of 95_test_vectors.md section 2 -/

/-- V-LOG-1, `AND(71777214530532181, 1085102592335238451)`. -/
theorem test_and_v_log_1 :
    respond 0x00#6 0x00FF00FF0F0F3355#64 0x0F0F0F0F00FF5533#64 = some ⟨0x000F000F000F1111#64, false, false⟩ := by decide

/-- V-LOG-28, `AND(MIN, MIN)`. -/
theorem test_and_v_log_28 :
    respond 0x00#6 0x8000000000000000#64 0x8000000000000000#64 = some ⟨0x8000000000000000#64, false, false⟩ := by decide

/-- V-LOG-2, `OR(71777214530532181, 1085102592335238451)`. -/
theorem test_or_v_log_2 :
    respond 0x02#6 0x00FF00FF0F0F3355#64 0x0F0F0F0F00FF5533#64 = some ⟨0x0FFF0FFF0FFF7777#64, false, false⟩ := by decide

/-- V-LOG-18, `OR(81985529216486895, 0)`. -/
theorem test_or_v_log_18 :
    respond 0x02#6 0x0123456789ABCDEF#64 0x0000000000000000#64 = some ⟨0x0123456789ABCDEF#64, false, false⟩ := by decide

/-- V-LOG-3, `NOR(71777214530532181, 1085102592335238451)`. -/
theorem test_nor_v_log_3 :
    respond 0x04#6 0x00FF00FF0F0F3355#64 0x0F0F0F0F00FF5533#64 = some ⟨0xF000F000F0008888#64, false, false⟩ := by decide

/-- V-LOG-21, `NOR(0, 0)`. -/
theorem test_nor_v_log_21 :
    respond 0x04#6 0x0000000000000000#64 0x0000000000000000#64 = some ⟨0xFFFFFFFFFFFFFFFF#64, false, false⟩ := by decide

/-- V-LOG-4, `XOR(71777214530532181, 1085102592335238451)`. -/
theorem test_xor_v_log_4 :
    respond 0x06#6 0x00FF00FF0F0F3355#64 0x0F0F0F0F00FF5533#64 = some ⟨0x0FF00FF00FF06666#64, false, false⟩ := by decide

/-- V-LOG-20, `XOR(81985529216486895, -1)`. -/
theorem test_xor_v_log_20 :
    respond 0x06#6 0x0123456789ABCDEF#64 0xFFFFFFFFFFFFFFFF#64 = some ⟨0xFEDCBA9876543210#64, false, false⟩ := by decide

/-- V-LOG-5, `NAND(71777214530532181, 1085102592335238451)`. -/
theorem test_nand_v_log_5 :
    respond 0x08#6 0x00FF00FF0F0F3355#64 0x0F0F0F0F00FF5533#64 = some ⟨0xFFF0FFF0FFF0EEEE#64, false, false⟩ := by decide

/-- V-LOG-22, `NAND(-1, -1)`. -/
theorem test_nand_v_log_22 :
    respond 0x08#6 0xFFFFFFFFFFFFFFFF#64 0xFFFFFFFFFFFFFFFF#64 = some ⟨0x0000000000000000#64, false, false⟩ := by decide

/-- V-LOG-6, `XNOR(71777214530532181, 1085102592335238451)`. -/
theorem test_xnor_v_log_6 :
    respond 0x0A#6 0x00FF00FF0F0F3355#64 0x0F0F0F0F00FF5533#64 = some ⟨0xF00FF00FF00F9999#64, false, false⟩ := by decide

/-- V-LOG-23, `XNOR(81985529216486895, 81985529216486895)`. -/
theorem test_xnor_v_log_23 :
    respond 0x0A#6 0x0123456789ABCDEF#64 0x0123456789ABCDEF#64 = some ⟨0xFFFFFFFFFFFFFFFF#64, false, false⟩ := by decide

/-- V-LOG-7, `NOT(71777214530532181)`. -/
theorem test_not_v_log_7 :
    respond 0x0C#6 0x00FF00FF0F0F3355#64 0x0000000000000000#64 = some ⟨0xFF00FF00F0F0CCAA#64, false, false⟩ := by decide

/-- V-LOG-27, `NOT(12, -2401053088876216593)`. -/
theorem test_not_v_log_27 :
    respond 0x0C#6 0x000000000000000C#64 0xDEADBEEFDEADBEEF#64 = some ⟨0xFFFFFFFFFFFFFFF3#64, false, false⟩ := by decide

/-- V-SH-12, `LSL(81985529216486895, 4294967297)`. -/
theorem test_lsl_v_sh_12 :
    respond 0x10#6 0x0123456789ABCDEF#64 0x0000000100000001#64 = some ⟨0x0000000000000000#64, false, false⟩ := by decide

/-- V-SH-10, `LSL(-1, -63)`. -/
theorem test_lsl_v_sh_10 :
    respond 0x10#6 0xFFFFFFFFFFFFFFFF#64 0xFFFFFFFFFFFFFFC1#64 = some ⟨0x0000000000000001#64, false, false⟩ := by decide

/-- V-SH-15, `LSR(-1070935975390360081, 4)`. -/
theorem test_lsr_v_sh_15 :
    respond 0x12#6 0xF123456789ABCDEF#64 0x0000000000000004#64 = some ⟨0x0F123456789ABCDE#64, false, false⟩ := by decide

/-- V-SH-21, `LSR(1, -63)`. -/
theorem test_lsr_v_sh_21 :
    respond 0x12#6 0x0000000000000001#64 0xFFFFFFFFFFFFFFC1#64 = some ⟨0x8000000000000000#64, false, false⟩ := by decide

/-- V-SH-26, `ROR(81985529216486895, 4)`. -/
theorem test_ror_v_sh_26 :
    respond 0x16#6 0x0123456789ABCDEF#64 0x0000000000000004#64 = some ⟨0xF0123456789ABCDE#64, false, false⟩ := by decide

/-- V-SH-34, `ROR(81985529216486895, MAX)`. -/
theorem test_ror_v_sh_34 :
    respond 0x16#6 0x0123456789ABCDEF#64 0x7FFFFFFFFFFFFFFF#64 = some ⟨0x02468ACF13579BDE#64, false, false⟩ := by decide

/-- V-SH-37, `ROL(81985529216486895, -1)`. -/
theorem test_rol_v_sh_37 :
    respond 0x14#6 0x0123456789ABCDEF#64 0xFFFFFFFFFFFFFFFF#64 = some ⟨0x8091A2B3C4D5E6F7#64, false, false⟩ := by decide

/-- V-SH-41, `ROL(81985529216486895, MIN)`. -/
theorem test_rol_v_sh_41 :
    respond 0x14#6 0x0123456789ABCDEF#64 0x8000000000000000#64 = some ⟨0x0123456789ABCDEF#64, false, false⟩ := by decide

/-- V-SH-43, `ASR(-1070935975390360081, 8)`. -/
theorem test_asr_v_sh_43 :
    respond 0x18#6 0xF123456789ABCDEF#64 0x0000000000000008#64 = some ⟨0xFFF123456789ABCD#64, false, false⟩ := by decide

/-- V-SH-54, `ASR(3, -62)`. -/
theorem test_asr_v_sh_54 :
    respond 0x18#6 0x0000000000000003#64 0xFFFFFFFFFFFFFFC2#64 = some ⟨0xC000000000000000#64, false, false⟩ := by decide

/-- V-ADD-5, `NEG(MIN)`. -/
theorem test_neg_v_add_5 :
    respond 0x20#6 0x8000000000000000#64 0x0000000000000000#64 = some ⟨0x8000000000000000#64, true, false⟩ := by decide

/-- V-ADD-6, `NEG(5, 1311768465173141112)`. -/
theorem test_neg_v_add_6 :
    respond 0x20#6 0x0000000000000005#64 0x1234567812345678#64 = some ⟨0xFFFFFFFFFFFFFFFB#64, false, false⟩ := by decide

/-- V-ADD-8, `ADDU(-1, 1)`. -/
theorem test_addu_v_add_8 :
    respond 0x22#6 0xFFFFFFFFFFFFFFFF#64 0x0000000000000001#64 = some ⟨0x0000000000000000#64, true, false⟩ := by decide

/-- V-ADD-9, `ADDU(MAX, 1)`. -/
theorem test_addu_v_add_9 :
    respond 0x22#6 0x7FFFFFFFFFFFFFFF#64 0x0000000000000001#64 = some ⟨0x8000000000000000#64, false, false⟩ := by decide

/-- V-ADD-13, `ADDS(MAX, 1)`. -/
theorem test_adds_v_add_13 :
    respond 0x23#6 0x7FFFFFFFFFFFFFFF#64 0x0000000000000001#64 = some ⟨0x8000000000000000#64, true, false⟩ := by decide

/-- V-ADD-15, `ADDS(-1, 1)`. -/
theorem test_adds_v_add_15 :
    respond 0x23#6 0xFFFFFFFFFFFFFFFF#64 0x0000000000000001#64 = some ⟨0x0000000000000000#64, false, false⟩ := by decide

/-- V-ADD-21, `SUBU(3, 5)`. -/
theorem test_subu_v_add_21 :
    respond 0x24#6 0x0000000000000003#64 0x0000000000000005#64 = some ⟨0xFFFFFFFFFFFFFFFE#64, true, false⟩ := by decide

/-- V-ADD-25, `SUBU(MIN, 1)`. -/
theorem test_subu_v_add_25 :
    respond 0x24#6 0x8000000000000000#64 0x0000000000000001#64 = some ⟨0x7FFFFFFFFFFFFFFF#64, false, false⟩ := by decide

/-- V-ADD-29, `SUBS(MIN, 1)`. -/
theorem test_subs_v_add_29 :
    respond 0x25#6 0x8000000000000000#64 0x0000000000000001#64 = some ⟨0x7FFFFFFFFFFFFFFF#64, true, false⟩ := by decide

/-- V-ADD-33, `SUBS(-1, MIN)`. -/
theorem test_subs_v_add_33 :
    respond 0x25#6 0xFFFFFFFFFFFFFFFF#64 0x8000000000000000#64 = some ⟨0x7FFFFFFFFFFFFFFF#64, false, false⟩ := by decide

/-- V-MUL-4, `MULU(-1, -1)`. -/
theorem test_mulu_v_mul_4 :
    respond 0x26#6 0xFFFFFFFFFFFFFFFF#64 0xFFFFFFFFFFFFFFFF#64 = some ⟨0x0000000000000001#64, true, false⟩ := by decide

/-- V-MUL-7, `MULU(MAX, 2)`. -/
theorem test_mulu_v_mul_7 :
    respond 0x26#6 0x7FFFFFFFFFFFFFFF#64 0x0000000000000002#64 = some ⟨0xFFFFFFFFFFFFFFFE#64, false, false⟩ := by decide

/-- V-MUL-12, `MULS(-1, -1)`. -/
theorem test_muls_v_mul_12 :
    respond 0x27#6 0xFFFFFFFFFFFFFFFF#64 0xFFFFFFFFFFFFFFFF#64 = some ⟨0x0000000000000001#64, false, false⟩ := by decide

/-- V-MUL-18, `MULS(3037000500, 3037000500)`. -/
theorem test_muls_v_mul_18 :
    respond 0x27#6 0x00000000B504F334#64 0x00000000B504F334#64 = some ⟨0x8000000008ABC290#64, true, false⟩ := by decide

/-- V-DIV-40, `DIVU(-1, 1)`. -/
theorem test_divu_v_div_40 :
    respond 0x28#6 0xFFFFFFFFFFFFFFFF#64 0x0000000000000001#64 = some ⟨0xFFFFFFFFFFFFFFFF#64, false, false⟩ := by decide

/-- V-DIV-17, `DIVU(10, 0)`. -/
theorem test_divu_v_div_17 :
    respond 0x28#6 0x000000000000000A#64 0x0000000000000000#64 = some ⟨0x0000000000000000#64, false, true⟩ := by decide

/-- V-DIV-23, `DIVS(MIN, -1)`. -/
theorem test_divs_v_div_23 :
    respond 0x29#6 0x8000000000000000#64 0xFFFFFFFFFFFFFFFF#64 = some ⟨0x8000000000000000#64, true, false⟩ := by decide

/-- V-DIV-28, `DIVS(MIN, MAX)`. -/
theorem test_divs_v_div_28 :
    respond 0x29#6 0x8000000000000000#64 0x7FFFFFFFFFFFFFFF#64 = some ⟨0xFFFFFFFFFFFFFFFE#64, false, false⟩ := by decide

/-- V-DIV-43, `MODU(MIN, -1)`. -/
theorem test_modu_v_div_43 :
    respond 0x2A#6 0x8000000000000000#64 0xFFFFFFFFFFFFFFFF#64 = some ⟨0x8000000000000000#64, false, false⟩ := by decide

/-- V-DIV-19, `MODU(0, 0)`. -/
theorem test_modu_v_div_19 :
    respond 0x2A#6 0x0000000000000000#64 0x0000000000000000#64 = some ⟨0x0000000000000000#64, false, true⟩ := by decide

/-- V-DIV-31, `MODS(5, MIN)`. -/
theorem test_mods_v_div_31 :
    respond 0x2B#6 0x0000000000000005#64 0x8000000000000000#64 = some ⟨0x8000000000000005#64, false, false⟩ := by decide

/-- V-DIV-24, `MODS(MIN, -1)`. -/
theorem test_mods_v_div_24 :
    respond 0x2B#6 0x8000000000000000#64 0xFFFFFFFFFFFFFFFF#64 = some ⟨0x0000000000000000#64, false, false⟩ := by decide

/-- V-CVT-17, `U2F(-9223371487098961919)`. -/
theorem test_u2f_v_cvt_17 :
    respond 0x30#6 0x8000008000000001#64 0x0000000000000000#64 = some ⟨0x000000005F000001#64, false, false⟩ := by decide

/-- V-CVT-21, `U2F(-1, 5)`. -/
theorem test_u2f_v_cvt_21 :
    respond 0x30#6 0xFFFFFFFFFFFFFFFF#64 0x0000000000000005#64 = some ⟨0x000000005F800000#64, false, false⟩ := by decide

/-- V-CVT-14, `S2F(-16777217)`. -/
theorem test_s2f_v_cvt_14 :
    respond 0x31#6 0xFFFFFFFFFEFFFFFF#64 0x0000000000000000#64 = some ⟨0x00000000CB800000#64, false, false⟩ := by decide

/-- V-CVT-9, `S2F(MAX)`. -/
theorem test_s2f_v_cvt_9 :
    respond 0x31#6 0x7FFFFFFFFFFFFFFF#64 0x0000000000000000#64 = some ⟨0x000000005F000000#64, false, false⟩ := by decide

/-- V-CVT-37, `U2D(-1024)`. -/
theorem test_u2d_v_cvt_37 :
    respond 0x32#6 0xFFFFFFFFFFFFFC00#64 0x0000000000000000#64 = some ⟨0x43F0000000000000#64, false, false⟩ := by decide

/-- V-CVT-38, `U2D(-9223372036854774784)`. -/
theorem test_u2d_v_cvt_38 :
    respond 0x32#6 0x8000000000000400#64 0x0000000000000000#64 = some ⟨0x43E0000000000000#64, false, false⟩ := by decide

/-- V-CVT-33, `S2D(1234567890123456789)`. -/
theorem test_s2d_v_cvt_33 :
    respond 0x33#6 0x112210F47DE98115#64 0x0000000000000000#64 = some ⟨0x43B12210F47DE981#64, false, false⟩ := by decide

/-- V-CVT-23, `S2D(-1)`. -/
theorem test_s2d_v_cvt_23 :
    respond 0x33#6 0xFFFFFFFFFFFFFFFF#64 0x0000000000000000#64 = some ⟨0xBFF0000000000000#64, false, false⟩ := by decide

/-! ## Witnesses: states and operands that meet the hypotheses of the statements -/

/-- R138: the state after reset meets the operand contract. -/
theorem witness_ContractMet : ContractMet State.reset := ⟨.and, rfl⟩

theorem witness_ReservedCodesAreRefused :
    step { State.reset with op := 0x3F#6 } = .refused (.reservedCode 0x3F#6 .function)
    ∧ step { State.reset with op := 0x01#6 } = .refused (.reservedCode 0x01#6 .mode) := ⟨rfl, rfl⟩

theorem witness_SelectFieldsPartitionTheCode :
    (selectOf 0x33#6).cls.getLsbD 1 = (0x33#6).getLsbD 5 ∧ (selectOf 0x33#6).fn.getLsbD 2 = (0x33#6).getLsbD 3 := by
  decide

theorem witness_ModeBitSelectsTheReading :
    modeOf .neg = none ∧ modeOf .u2d = some .unsigned ∧ modeOf .mods = some .signed := ⟨rfl, rfl, rfl⟩

theorem witness_DecodeAndEncodeAgree :
    6 ≤ 6 ∧ decodeTableWord 6 (encode .s2d).toNat = some .s2d := ⟨le_rfl, rfl⟩

theorem witness_StepRunsTheDecodedOperation :
    decode State.reset.op = .ok .and ∧ step State.reset = exec .and State.reset := ⟨rfl, rfl⟩

theorem witness_ResponseDependsOnRequestOnly :
    State.reset.request = { State.reset with result := 5#64, overflow := true }.request
    ∧ step { State.reset with result := 5#64, overflow := true } = step State.reset := ⟨rfl, rfl⟩

/-- `NEG(MIN)` and its response, V-ADD-5. -/
def negMin : State := { State.reset with op := 0x20#6, a := 0x8000000000000000#64 }

/-- The state after `negMin`. -/
def negMinDone : State := { negMin with result := 0x8000000000000000#64, overflow := true }

theorem witness_RepeatedRequestRepeatsTheResponse :
    step negMin = .next negMinDone ∧ step negMinDone = .next negMinDone := ⟨rfl, rfl⟩

theorem witness_AnyRequestMayFollowAnyOther :
    (∀ q ∈ [negMin.request] ++ [State.reset.request], ∃ i, decode q.op = .ok i)
    ∧ serve State.reset ([negMin.request] ++ [State.reset.request]) = .next State.reset := by
  refine ⟨fun q hq => ?_, rfl⟩
  simp only [List.cons_append, List.nil_append, List.mem_cons, List.not_mem_nil, or_false] at hq
  obtain rfl | rfl := hq
  · exact ⟨.neg, rfl⟩
  · exact ⟨.and, rfl⟩

theorem witness_SequenceRefusedExactlyOnReservedCode :
    serve State.reset [negMin.request, { negMin.request with op := 0x21#6 }]
      = .refused (.reservedCode 0x21#6 .mode) := rfl

theorem witness_CopiesAreIndependent :
    [State.reset, negMin][1]? = some negMin ∧ (0 : Nat) ≠ 1
    ∧ stepAt [State.reset, negMin] 1 = .next [State.reset, negMinDone]
    ∧ stepAt [State.reset, negMin] 0 = .next [State.reset, negMin] := ⟨rfl, by decide, rfl, rfl⟩

theorem witness_StepKeepsFlagsConsistent : FlagsConsistent negMin ∧ step negMin = .next negMinDone :=
  ⟨⟨by decide, by decide⟩, rfl⟩

theorem witness_StepSettlesTheOutputs : step negMin = .next negMinDone ∧ Settled negMinDone :=
  ⟨rfl, .neg, rfl, rfl⟩

theorem witness_UnaryOperationsIgnoreB :
    Instr.not ∈ unaryOperations ∧ alu .not 12#64 0#64 = alu .not 12#64 0xDEADBEEFDEADBEEF#64 := by decide

/-- R51 at both ends of both ranges, at width 8. -/
theorem witness_ToBitsEncodesItsRange :
    inRange (-1) 8 .unsigned = false ∧ inRange 0 8 .unsigned = true ∧ inRange 255 8 .unsigned = true
    ∧ inRange 256 8 .unsigned = false ∧ inRange (-129) 8 .signed = false ∧ inRange (-128) 8 .signed = true
    ∧ inRange 127 8 .signed = true ∧ inRange 128 8 .signed = false := by decide

/-- R51 at width 1, where the signed range is -1 to 0. -/
theorem witness_ToBitsEncodesItsRange_narrow :
    inRange (-1) 1 .signed = true ∧ inRange 0 1 .signed = true ∧ inRange 1 1 .signed = false
    ∧ inRange 1 1 .unsigned = true ∧ inRange 2 1 .unsigned = false := by decide

theorem test_signed_call_on_negative : toBits (-2) 8 .signed = .ok 0xFE#8 := rfl

/-- The worked example at the end of 40_codec.md. -/
theorem test_codec_example :
    unsignedOf 0xFFFFFFFFFFFFFFFE#64 = 18446744073709551614 ∧ signedOf 0xFFFFFFFFFFFFFFFE#64 = -2
    ∧ trunc64 18446744073709551621 = 5#64 ∧ trunc64 (-1) = 0xFFFFFFFFFFFFFFFF#64
    ∧ truncate 9223372036854775808 = -9223372036854775808 := by decide

/-- The amounts at the ends of the ranges of R77: 1, 63, `MAX`, -1, `MIN`, and an amount with its negation. -/
theorem witness_ShiftRotateLaws :
    signedOf (-1#64) = -signedOf 1#64 ∧ signedOf 0x8000000000000000#64 = minSigned
    ∧ (0 < signedOf 1#64 ∧ signedOf 63#64 < 64 ∧ 64 - signedOf 63#64 ≤ (1 : Nat))
    ∧ (1 ≤ signedOf 1#64 ∧ signedOf 63#64 ≤ 63) ∧ ((5#64).getLsbD 63 = false ∧ 0 ≤ signedOf 0#64)
    ∧ signedOf 0x8000000000000000#64 < 0 := by decide

theorem witness_ShiftsAreArithmeticOnTheValue :
    (0 ≤ signedOf 0#64 ∧ signedOf 63#64 ≤ 63)
    ∧ (-63 ≤ signedOf 0xFFFFFFFFFFFFFFC1#64 ∧ signedOf 0xFFFFFFFFFFFFFFFF#64 ≤ -1)
    ∧ 0 ≤ signedOf 0x7FFFFFFFFFFFFFFF#64
    ∧ (0x8000000000000044#64).extractLsb' 0 6 = (4#64).extractLsb' 0 6 := by decide

theorem witness_NegateNegates : signedOf 0x8000000000000000#64 = minSigned := by decide

theorem witness_AddSubtractLaws : Instr.subs ∈ [Instr.neg, .addu, .adds, .subu, .subs] := by decide

theorem witness_MultiplyLaws :
    (alu .mulu 0x7FFFFFFFFFFFFFFF#64 2#64).overflow = false
    ∧ (alu .muls 0xFFFFFFFFFFFFFFFF#64 0xFFFFFFFFFFFFFFFF#64).overflow = false := by decide

theorem witness_ZeroDivisorComesFirst :
    Instr.divs ∈ [Instr.divu, .divs, .modu, .mods] ∧ State.reset.b = 0#64
    ∧ { State.reset with b := 1#64 }.b ≠ 0#64 := by decide

theorem witness_ModuloSignedTakesTheRemainder : signedOf 0x8000000000000000#64 ≠ 0 := by decide

/-- Rows of the table of R100: an exact quotient, equal signs, opposite signs. -/
theorem witness_FloorDivisionAgainstTruncating :
    Int.tmod (-6) 3 = 0 ∧ ((-7 : Int) < 0 ↔ (-2 : Int) < 0)
    ∧ Int.tmod (-7) 2 ≠ 0 ∧ ¬((-7 : Int) < 0 ↔ (2 : Int) < 0)
    ∧ signedOf 0xFFFFFFFFFFFFFFF9#64 = -7 ∧ (2#64 : Word) ≠ 0#64 := by decide

theorem witness_DivideModuloLaws :
    signedOf 0x8000000000000000#64 = minSigned ∧ signedOf 0xFFFFFFFFFFFFFFFF#64 = -1
    ∧ (7#64 : Word) ≠ 0#64 ∧ ¬(signedOf 7#64 = minSigned ∧ signedOf 7#64 = -1)
    ∧ (alu .divu 7#64 0#64).divideByZero = true
    ∧ (7#64).getLsbD 63 = false := by decide

/-- The ends of the range of R110. -/
theorem witness_ConversionGivesNormalOrPositiveZero :
    ConvertibleRange minSigned ∧ ConvertibleRange 0 ∧ ConvertibleRange maxUnsigned := by decide

/-- R112's tie `S2F(16777217)`: the two neighbours are equally near, and the even one is taken. -/
theorem witness_ConversionRoundsToNearestTiesToEven :
    binary32 ∈ [binary32, binary64] ∧ ConvertibleRange 16777217
    ∧ convert binary32 16777217 = 0x4B800000 ∧ valueOf binary32 0x4B800000 = some 16777216
    ∧ valueOf binary32 0x4B800001 = some 16777218
    ∧ |(16777216 : ℚ) - (16777217 : Int)| = |(16777218 : ℚ) - (16777217 : Int)| := by
  refine ⟨by decide, by decide, by decide, ?_, ?_, by norm_num⟩
  · norm_num [valueOf, kindOf, exponentField, fractionField, signField, binary32]
  · norm_num [valueOf, kindOf, exponentField, fractionField, signField, binary32]

theorem witness_ConversionLaws :
    (5#64).getLsbD 63 = false ∧ (5#64 : Word) ≠ 0#64 ∧ ConvertibleRange minSigned ∧ ConvertibleRange maxUnsigned
    ∧ minSigned ≤ maxUnsigned ∧ minSigned.natAbs = 1 * 2 ^ 63 ∧ 1 < 2 ^ binary32.precision
    ∧ Instr.s2d ∈ [Instr.u2f, .s2f, .u2d, .s2d] := by decide

/-- The largest odd magnitude of 53 bits. -/
theorem witness_TwoRoundingsAgreeUpTo53Bits :
    (9007199254740991 : Int).natAbs = 9007199254740991 * 2 ^ 0 ∧ 9007199254740991 < 2 ^ 53
    ∧ ConvertibleRange 9007199254740991 := by decide

/-- Both sides of D7: a quotient below `2^63` on which the readings agree, and one on which they differ. -/
theorem witness_UnsignedDivisionOverflowReadings :
    divuIn .signed 7#64 2#64 = divuIn .unsigned 7#64 2#64
    ∧ divuIn .signed 0xFFFFFFFFFFFFFFFF#64 1#64 ≠ divuIn .unsigned 0xFFFFFFFFFFFFFFFF#64 1#64 := by decide

end Sys2Proof.Tests
end

section
/-! The outputs reach no evaluation (R12): a step is a function of the request on the input ports. -/

namespace Sys2Proof.Machine

/-- What the outputs held before a step does not reach its outcome, the whole next state included. -/
theorem step_answer (s : State) (r : Response) : step (s.answer r) = step s := by
  unfold step
  rw [State.answer_op]
  cases decode s.op with
  | ok i => simp only [exec_eq, State.answer_a, State.answer_b, State.answer_answer]
  | error why => rfl

/-- States with one request differ in their outputs only, so they step alike. -/
theorem step_eq_of_request_eq {s s' : State} (h : s.request = s'.request) : step s' = step s := by
  have houtputs : s' = s.answer s'.response := State.ext_ports h.symm rfl
  rw [houtputs, step_answer]

/-- Settles O9: the two states have one outcome, which is a refusal or an answer (`step_cases`). -/
theorem responseDependsOnRequestOnly : Obligations.ResponseDependsOnRequestOnly := by
  unfold Obligations.ResponseDependsOnRequestOnly
  intro s s' hreq
  rw [step_eq_of_request_eq hreq]
  obtain ⟨i, -, hstep⟩ | ⟨why, -, hstep⟩ := step_cases s
  · exact .inr ⟨_, _, hstep, hstep, rfl⟩
  · exact .inl ⟨_, hstep, hstep⟩

end Sys2Proof.Machine
end

section
/-! The readings of a bit vector as sums of bit weights (R24, R52, R53), at every width. The source's index-wise sums
run from the most significant bit; `lowBitsSum` runs from the least significant one. -/

namespace Sys2Proof.Machine

/-- The sum of `2^k` over the set bits `k < n` of a bit vector. -/
def lowBitsSum {width : Nat} (v : BitVec width) (n : Nat) : Int :=
  ((List.range n).map fun k => if v.getLsbD k then (2 : Int) ^ k else 0).sum

theorem lowBitsSum_succ {width : Nat} (v : BitVec width) (n : Nat) :
    lowBitsSum v (n + 1) = lowBitsSum v n + if v.getLsbD n then (2 : Int) ^ n else 0 :=
  List.sum_range_succ _ n

/-- The low `n` bits weigh what the number leaves modulo `2^n`. -/
theorem lowBitsSum_eq_toNat_mod {width : Nat} (v : BitVec width) (n : Nat) :
    lowBitsSum v n = (v.toNat % 2 ^ n : Nat) := by
  induction n with
  | zero => simp [lowBitsSum, Nat.mod_one]
  | succ n ih =>
    rw [lowBitsSum_succ, ih, Nat.mod_pow_succ, ← BitVec.testBit_toNat, Nat.testBit_eq_decide_div_mod_eq]
    obtain h | h := Nat.mod_two_eq_zero_or_one (v.toNat / 2 ^ n) <;> simp [h]

theorem lowBitsSum_width {width : Nat} (v : BitVec width) : lowBitsSum v width = v.toNat := by
  rw [lowBitsSum_eq_toNat_mod, Nat.mod_eq_of_lt v.isLt]

/-- The top bit of a two's-complement pattern weighs `-2^n`. -/
theorem toInt_eq_signWeight_add_lowBitsSum {n : Nat} (v : BitVec (n + 1)) :
    v.toInt = (if v.getLsbD n then -(2 : Int) ^ n else 0) + lowBitsSum v n := by
  have hsum := lowBitsSum_width v
  rw [lowBitsSum_succ] at hsum
  rw [BitVec.toInt_eq_msb_cond, BitVec.msb_eq_getLsbD_last, ← hsum, Nat.add_sub_cancel]
  push_cast
  split
  · ring
  · ring

theorem vectorBit_eq_getLsbD {width i : Nat} (v : BitVec width) (h : i < width) :
    vectorBit v i = v.getLsbD (width - 1 - i) := by
  simp [vectorBit, BitVec.getMsbD_eq_getLsbD, h]

/-- A sum over `n` indices is the same from either end. -/
theorem sum_range_map_reflect (f : Nat → Int) (n : Nat) :
    ((List.range n).map fun i => f (n - 1 - i)).sum = ((List.range n).map f).sum :=
  Finset.sum_range_reflect f n

/-- R52: the source's sum is the unsigned value. -/
theorem fromBitsUnsigned_eq_toNat {width : Nat} (v : BitVec width) : fromBitsUnsigned v = v.toNat := by
  rw [← lowBitsSum_width, lowBitsSum, ← sum_range_map_reflect, fromBitsUnsigned]
  refine congrArg List.sum (List.map_congr_left fun i hi => ?_)
  rw [vectorBit_eq_getLsbD v (List.mem_range.mp hi)]

/-- R53: the source's sum is the two's-complement value. Index 0 is the sign bit; the other indices run through the
low bits downwards. -/
theorem fromBitsSigned_eq_toInt {width : Nat} (v : BitVec width) : fromBitsSigned v = v.toInt := by
  cases width with
  | zero => simp [fromBitsSigned, BitVec.eq_nil v]
  | succ n =>
    have hsign : vectorBit v 0 = v.getLsbD n := vectorBit_eq_getLsbD v n.succ_pos
    have hindex (i : Nat) : n - (i + 1) = n - 1 - i := by omega
    have hlow : ∀ i ∈ List.range n, vectorBit v (i + 1) = v.getLsbD (n - 1 - i) := fun i hi => by
      rw [vectorBit_eq_getLsbD v (Nat.succ_lt_succ (List.mem_range.mp hi)), Nat.add_sub_cancel, hindex i]
    rw [toInt_eq_signWeight_add_lowBitsSum, lowBitsSum, ← sum_range_map_reflect, fromBitsSigned,
      List.sum_range_succ', hsign, if_pos rfl, Nat.add_sub_cancel]
    refine congrArg (_ + List.sum ·) (List.map_congr_left fun i hi => ?_)
    rw [hlow i hi, if_neg i.succ_ne_zero, hindex i]

/-- Settles O20: the sums of bit weights at width 64; the bounds are the codec's own. -/
theorem wordReadingsAreTheCodecsSums : Obligations.WordReadingsAreTheCodecsSums := by
  unfold Obligations.WordReadingsAreTheCodecsSums
  intro w
  exact ⟨fun i hi => vectorBit_eq_getLsbD w hi, fromBitsUnsigned_eq_toNat w, (lowBitsSum_width w).symm,
    unsignedOf_nonneg w, unsignedOf_le w, fromBitsSigned_eq_toInt w, toInt_eq_signWeight_add_lowBitsSum w,
    minSigned_le_signedOf w, signedOf_le w⟩

end Sys2Proof.Machine
end

section
/-! The decoder against the well-formedness of the select fields (R34, R36, R38): a code is refused exactly where its
fields name no operation. -/

namespace Sys2Proof

/-- A table entry with an unsigned and a signed variant. -/
def Function.isModed : Function → Bool
  | .single _ => false
  | .moded _ _ => true

/-- R36, second table: it has an entry exactly where the function is assigned, and the entry has two variants exactly
where the function has a mode. -/
theorem map_isModed_functionAt (f : Select) :
    (functionAt f.cls f.fn).map Function.isModed = if f.functionAssigned then some f.hasMode else none := by
  obtain ⟨cls, fn, mode⟩ := f
  revert cls fn mode
  decide

/-- Everything the decoder can answer, by which of the two checks on the fields fails. -/
theorem decodeSelect_cases (f : Select) :
    (f.wellFormed = true ∧ ∃ i, decodeSelect f = .ok i)
    ∨ (f.wellFormed = false ∧ f.functionAssigned = false ∧ decodeSelect f = .error .function)
    ∨ (f.wellFormed = false ∧ f.modeAllowed = false ∧ decodeSelect f = .error .mode) := by
  have htable := map_isModed_functionAt f
  cases hentry : functionAt f.cls f.fn with
  | none =>
    have hfn : f.functionAssigned = false := by simpa [hentry] using htable
    exact .inr (.inl ⟨by simp [Select.wellFormed, hfn], hfn, by simp [decodeSelect, hentry]⟩)
  | some entry =>
    obtain ⟨hfn, hmoded⟩ : f.functionAssigned = true ∧ f.hasMode = entry.isModed := by
      simpa [hentry, eq_comm (a := entry.isModed)] using htable
    cases entry with
    | single i =>
      have hallowed : f.modeAllowed = decide (f.mode = 0#1) := by
        simp [Select.modeAllowed, hmoded, Function.isModed, beq_eq_decide]
      by_cases hmode : f.mode = 0#1
      · exact .inl ⟨by simp [Select.wellFormed, hfn, hallowed, hmode], i, by simp [decodeSelect, hentry, hmode]⟩
      · exact .inr (.inr ⟨by simp [Select.wellFormed, hallowed, hmode], by simp [hallowed, hmode],
          by simp [decodeSelect, hentry, hmode]⟩)
    | moded unsigned signed =>
      exact .inl ⟨by simp [Select.wellFormed, Select.modeAllowed, hfn, hmoded, Function.isModed],
        if f.mode = 0#1 then unsigned else signed, by simp [decodeSelect, hentry]⟩

/-- A code is rejected exactly when its fields are not well formed. -/
theorem exists_decode_eq_error_iff (code : BitVec 6) :
    (∃ why, decode code = .error why) ↔ (selectOf code).wellFormed = false := by
  unfold decode
  obtain ⟨hwf, i, h⟩ | ⟨hwf, -, h⟩ | ⟨hwf, -, h⟩ := decodeSelect_cases (selectOf code)
  · simp [hwf, h]
  · simp [hwf, h]
  · simp [hwf, h]

/-- R36: the decoder gives back the operation whose code it is given. -/
@[simp] theorem decode_encode (i : Instr) : decode (encode i) = .ok i := by
  cases i <;> rfl

end Sys2Proof

namespace Sys2Proof.Machine

/-- R124: a step with a rejected code on the `op` port is refused with that code. -/
theorem step_eq_refused {s : State} {why : ReservedCode} (h : decode s.op = .error why) :
    step s = .refused (.reservedCode s.op why) := by
  simp [step, h]

/-- Settles O2: the listed codes are those with ill-formed fields, which is what the decoder rejects. -/
theorem reservedCodesAreRefused : Obligations.ReservedCodesAreRefused := by
  unfold Obligations.ReservedCodesAreRefused
  intro reserved
  have hillFormed : ∀ c, (selectOf c).wellFormed = false ↔ c ∈ reserved := by decide
  have hrejected : ∀ c, (∃ why, decode c = .error why) ↔ c ∈ reserved :=
    fun c => (exists_decode_eq_error_iff c).trans (hillFormed c)
  refine ⟨rfl, by decide, hrejected, fun s hs => ?_⟩
  obtain ⟨why, hdecode⟩ := (hrejected s.op).mpr hs
  exact ⟨why, step_eq_refused hdecode⟩

/-- Settles O1: each code of the table is the code `encode` gives its operation. -/
theorem codesDecodeAsTabulated : Obligations.CodesDecodeAsTabulated :=
  ⟨decode_encode .and, decode_encode .or, decode_encode .nor, decode_encode .xor, decode_encode .nand,
    decode_encode .xnor, decode_encode .not,
    decode_encode .lsl, decode_encode .lsr, decode_encode .rol, decode_encode .ror, decode_encode .asr,
    decode_encode .neg, decode_encode .addu, decode_encode .adds, decode_encode .subu, decode_encode .subs,
    decode_encode .mulu, decode_encode .muls, decode_encode .divu, decode_encode .divs, decode_encode .modu,
    decode_encode .mods,
    decode_encode .u2f, decode_encode .s2f, decode_encode .u2d, decode_encode .s2d⟩

end Sys2Proof.Machine
end

section
/-! Encoding an integer as a bit pattern (R51, R54): the pattern is the residue modulo `2^width`, whichever mode checks
the range. -/

namespace Sys2Proof.Machine

theorem inRange_unsigned_iff {value : Int} {width : Nat} :
    inRange value width .unsigned = true ↔ 0 ≤ value ∧ value ≤ 2 ^ width - 1 := by
  simp [inRange]

theorem inRange_signed_iff {value : Int} {width : Nat} :
    inRange value width .signed = true ↔ -2 ^ (width - 1) ≤ value ∧ value ≤ 2 ^ (width - 1) - 1 := by
  simp [inRange]

/-- R51: the mode does not reach the pattern. -/
theorem toBits_eq_ok {value : Int} {width : Nat} {mode : Signedness} (h : inRange value width mode = true) :
    toBits value width mode = .ok (BitVec.ofInt width value) := by
  simp [toBits, h]

theorem toBits_eq_error {value : Int} {width : Nat} {mode : Signedness} (h : ¬ inRange value width mode = true) :
    toBits value width mode = .error (.outOfRange value width mode) := by
  simp [toBits, h]

/-- The unsigned sum of a two's-complement pattern is the residue of the integer. -/
theorem fromBitsUnsigned_ofInt (width : Nat) (value : Int) :
    fromBitsUnsigned (BitVec.ofInt width value) = value % 2 ^ width := by
  have hnonneg : 0 ≤ value % 2 ^ width := Int.emod_nonneg _ (by positivity)
  rw [fromBitsUnsigned_eq_toNat, BitVec.toNat_ofInt]
  push_cast
  exact Int.toNat_of_nonneg hnonneg

/-- The common part of the two ranges: what is nonnegative and signed is unsigned too. -/
theorem inRange_unsigned_of_nonneg_of_signed {value : Int} {width : Nat} (hnonneg : 0 ≤ value)
    (h : inRange value width .signed = true) : inRange value width .unsigned = true := by
  have hpow : (2 : Int) ^ (width - 1) ≤ 2 ^ width := pow_le_pow_right₀ one_le_two (width.sub_le 1)
  obtain ⟨-, hle⟩ := inRange_signed_iff.mp h
  exact inRange_unsigned_iff.mpr ⟨hnonneg, by omega⟩

/-- Settles O19: outside the range the call fails, inside it the pattern is the residue, which on the unsigned range is
the value itself. -/
theorem toBitsEncodesItsRange : Obligations.ToBitsEncodesItsRange := by
  unfold Obligations.ToBitsEncodesItsRange
  intro value width _
  refine ⟨fun h => ?unsignedFails, fun h => ?unsignedEncodes, fun h => ?signedFails, fun h => ?signedEncodes,
    fun ⟨hnonneg, hle⟩ => ?agree⟩
  case unsignedFails => exact ⟨_, toBits_eq_error fun hin => by have := inRange_unsigned_iff.mp hin; omega⟩
  case unsignedEncodes =>
    obtain ⟨hnonneg, hle⟩ := h
    refine ⟨_, toBits_eq_ok (inRange_unsigned_iff.mpr ⟨hnonneg, hle⟩), ?_⟩
    rw [fromBitsUnsigned_ofInt, Int.emod_eq_of_lt hnonneg (Int.lt_of_le_sub_one hle)]
  case signedFails => exact ⟨_, toBits_eq_error fun hin => by have := inRange_signed_iff.mp hin; omega⟩
  case signedEncodes => exact ⟨_, toBits_eq_ok (inRange_signed_iff.mpr h), fromBitsUnsigned_ofInt width value⟩
  case agree =>
    have hpos : (0 : Int) < 2 ^ (width - 1) := by positivity
    have hsigned : inRange value width .signed = true := inRange_signed_iff.mpr ⟨by omega, hle⟩
    rw [toBits_eq_ok (inRange_unsigned_of_nonneg_of_signed hnonneg hsigned), toBits_eq_ok hsigned]

/-- R54: the source's `truncate` at its own width is the signed reading of `trunc64`. -/
theorem truncate_eq_signedOf_trunc64 (z : Int) : truncate z = signedOf (trunc64 z) := rfl

/-- Settles O21: the signed reading of a Word (`signedOf_eq`) at the Word whose unsigned reading is the residue. -/
theorem truncationIsTheResidue : Obligations.TruncationIsTheResidue := by
  unfold Obligations.TruncationIsTheResidue
  intro z
  have hresidue : unsignedOf (trunc64 z) = z % 2 ^ 64 := unsignedOf_trunc64_eq z
  refine ⟨hresidue, truncate_eq_signedOf_trunc64 z, ?_⟩
  rw [truncate_eq_signedOf_trunc64, signedOf_eq, hresidue]
  exact if_congr (Int.le_sub_one_iff (n := 2 ^ 63)) rfl rfl

end Sys2Proof.Machine
end

section
/-! The logical operations bit by bit (R60 to R67). -/

namespace Sys2Proof.Machine

/-- R60: an operation whose word has the bits `f` and whose flags are clear acts bitwise. -/
theorem actsBitwise_of_alu_eq_clearFlags {i : Instr} {f : Bool → Bool → Bool} (word : Word → Word → Word)
    (halu : ∀ a b, alu i a b = clearFlags (word a b))
    (hbit : ∀ a b k, k < 64 → (word a b).getLsbD k = f (a.getLsbD k) (b.getLsbD k)) : ActsBitwise i f := by
  intro s
  refine ⟨_, exec_eq i s, fun k hk => ?_, ?_, ?_, State.answer_request _ _⟩
  · rw [State.answer_result, halu, clearFlags_result, hbit _ _ k hk]
  · rw [State.answer_overflow, halu, clearFlags_overflow]
  · rw [State.answer_divideByZero, halu, clearFlags_divideByZero]

/-- The complement has the complemented bits within the word; beyond it every bit is 0. -/
theorem getLsbD_complement (w : Word) {k : Nat} (hk : k < 64) : (~~~w).getLsbD k = !w.getLsbD k := by
  rw [BitVec.getLsbD_not, decide_eq_true hk, Bool.true_and]

/-- R61. -/
theorem actsBitwise_and : ActsBitwise .and fun x y => x && y :=
  actsBitwise_of_alu_eq_clearFlags (· &&& ·) (fun _ _ => rfl) fun _ _ _ _ => BitVec.getLsbD_and

/-- R62. -/
theorem actsBitwise_or : ActsBitwise .or fun x y => x || y :=
  actsBitwise_of_alu_eq_clearFlags (· ||| ·) (fun _ _ => rfl) fun _ _ _ _ => BitVec.getLsbD_or

/-- R63. -/
theorem actsBitwise_nor : ActsBitwise .nor fun x y => !(x || y) :=
  actsBitwise_of_alu_eq_clearFlags (fun a b => ~~~(a ||| b)) (fun _ _ => rfl) fun a b k hk => by
    rw [getLsbD_complement _ hk, BitVec.getLsbD_or]

/-- R64. -/
theorem actsBitwise_xor : ActsBitwise .xor fun x y => x != y :=
  actsBitwise_of_alu_eq_clearFlags (· ^^^ ·) (fun _ _ => rfl) fun _ _ _ _ => BitVec.getLsbD_xor

/-- R65. -/
theorem actsBitwise_nand : ActsBitwise .nand fun x y => !(x && y) :=
  actsBitwise_of_alu_eq_clearFlags (fun a b => ~~~(a &&& b)) (fun _ _ => rfl) fun a b k hk => by
    rw [getLsbD_complement _ hk, BitVec.getLsbD_and]

/-- R66: the complement of "differ" is "agree". -/
theorem actsBitwise_xnor : ActsBitwise .xnor fun x y => x == y :=
  actsBitwise_of_alu_eq_clearFlags (fun a b => ~~~(a ^^^ b)) (fun _ _ => rfl) fun a b k hk => by
    rw [getLsbD_complement _ hk, BitVec.getLsbD_xor]
    exact Bool.not_not (_ == _)

/-- R67. -/
theorem actsBitwise_not : ActsBitwise .not fun x _ => !x :=
  actsBitwise_of_alu_eq_clearFlags (fun a _ => ~~~a) (fun _ _ => rfl) fun a _ _ hk => getLsbD_complement a hk

/-- Settles O24: each code is the one `encode` gives, and each operation acts bitwise. -/
theorem binaryLogicalOperationsActBitwise : Obligations.BinaryLogicalOperationsActBitwise :=
  ⟨⟨decode_encode .and, actsBitwise_and⟩, ⟨decode_encode .or, actsBitwise_or⟩,
    ⟨decode_encode .nor, actsBitwise_nor⟩, ⟨decode_encode .xor, actsBitwise_xor⟩,
    ⟨decode_encode .nand, actsBitwise_nand⟩, ⟨decode_encode .xnor, actsBitwise_xnor⟩⟩

/-- Settles O25, as O24 for the one operand. -/
theorem notActsBitwise : Obligations.NotActsBitwise :=
  ⟨decode_encode .not, actsBitwise_not⟩

end Sys2Proof.Machine
end

section
/-! The shifts and rotates bit by bit (R70 to R76): which bit of the operand, if any, lands on bit `k` of the result. -/

namespace Sys2Proof.Machine

/-- R70: an operation whose word moves the bits by `f` and whose flags are clear moves bits by `f`. -/
theorem movesBits_of_alu_eq_clearFlags {i : Instr} {f : Word → Int → Nat → Bool} (word : Word → Int → Word)
    (halu : ∀ a b, alu i a b = clearFlags (word a (signedOf b)))
    (hbit : ∀ a n k, k < 64 → (word a n).getLsbD k = f a n k) : MovesBits i f := by
  intro s
  refine ⟨_, exec_eq i s, fun k hk => ?_, ?_, ?_, State.answer_request _ _⟩
  · rw [State.answer_result, halu, clearFlags_result, hbit _ _ k hk]
  · rw [State.answer_overflow, halu, clearFlags_overflow]
  · rw [State.answer_divideByZero, halu, clearFlags_divideByZero]

/-! Reading a bit at an integer position. -/

theorem bitOr0_of_outside (w : Word) {j : Int} (h : j < 0 ∨ 63 < j) : bitOr0 w j = false :=
  if_neg (by omega)

/-- At a natural position there is no upper bound to check: a Word has no bit above 63. -/
theorem bitOr0_natCast (w : Word) (k : Nat) : bitOr0 w k = w.getLsbD k := by
  by_cases hk : k ≤ 63
  · exact if_pos (by omega)
  · rw [bitOr0_of_outside w (by omega), BitVec.getLsbD_of_ge w k (by omega)]

/-- A guard that only sends positions outside the Word to 0 says nothing new. -/
theorem ite_false_bitOr0 {p : Prop} [Decidable p] (w : Word) {j : Int} (h : p → j < 0 ∨ 63 < j) :
    (if p then false else bitOr0 w j) = bitOr0 w j := by
  split
  · next hp => exact (bitOr0_of_outside w (h hp)).symm
  · rfl

/-! The logical shift and the rotate. -/

theorem getLsbD_shiftLeft_nat (w : Word) (m : Nat) {k : Nat} (hk : k < 64) :
    (w <<< m).getLsbD k = if m ≤ k then w.getLsbD (k - m) else false := by
  rw [BitVec.getLsbD_shiftLeft]
  by_cases hmk : m ≤ k
  · simp [hk, hmk]
  · simp [hmk, Nat.lt_of_not_le hmk]

theorem getLsbD_shiftLeft_eq_bitOr0 (w : Word) (m : Nat) {k : Nat} (hk : k < 64) :
    (w <<< m).getLsbD k = bitOr0 w (k - m) := by
  rw [getLsbD_shiftLeft_nat w m hk]
  split
  · next hmk => rw [← bitOr0_natCast, Nat.cast_sub hmk]
  · rw [bitOr0_of_outside w (by omega)]

/-- R72: whatever the sign and size of the amount, bit `k` of the result is bit `k - n` of the operand, or 0 where there
is no such bit. -/
theorem getLsbD_shiftLeft_int (w : Word) (n : Int) {k : Nat} (hk : k < 64) :
    (shiftLeft w n).getLsbD k = bitOr0 w (k - n) := by
  unfold shiftLeft
  split
  · rw [bitOr0_of_outside w (by omega), BitVec.getLsbD_zero]
  split
  · next hn => rw [getLsbD_shiftLeft_eq_bitOr0 w _ hk, Int.toNat_of_nonneg hn]
  · have hindex : (((-n).toNat + k : Nat) : Int) = k - n := by omega
    rw [BitVec.getLsbD_ushiftRight, ← bitOr0_natCast, hindex]

/-- R74: a rotate by less than the width reads its operand cyclically. -/
theorem getLsbD_rotateRight_nat (w : Word) {r k : Nat} (hr : r < 64) (hk : k < 64) :
    (w.rotateRight r).getLsbD k = w.getLsbD ((k + r) % 64) := by
  rw [BitVec.getLsbD_rotateRight_of_lt hr]
  by_cases hwrap : k < 64 - r
  · have hindex : r + k = (k + r) % 64 := by omega
    simp [hwrap, hindex]
  · have hindex : k - (64 - r) = (k + r) % 64 := by omega
    simp [hwrap, hk, hindex]

theorem getLsbD_rotateRight_int (w : Word) (n : Int) {k : Nat} (hk : k < 64) :
    (rotateRight w n).getLsbD k = w.getLsbD ((k + (n % 64).toNat) % 64) :=
  getLsbD_rotateRight_nat w (by omega) hk

/-- R75: the two printed forms of the index that a rotate left reads. -/
theorem add_neg_emod_toNat_mod (n : Int) (k : Nat) :
    (k + (-n % 64).toNat) % 64 = (((k : Int) - n) % 64).toNat := by
  omega

/-! The five cases of R76. -/

theorem getLsbD_ite_congr {p : Prop} [Decidable p] {v w : Word} {k : Nat} {x y : Bool}
    (hpos : p → v.getLsbD k = x) (hneg : ¬p → w.getLsbD k = y) :
    (if p then v else w).getLsbD k = if p then x else y := by
  rw [apply_ite (BitVec.getLsbD · k)]
  exact ite_congr rfl hpos hneg

/-- 64 copies of the sign bit, which is bit 63. -/
theorem getLsbD_signFill (w : Word) {k : Nat} (hk : k < 64) :
    (if w.msb then BitVec.allOnes 64 else 0#64).getLsbD k = w.getLsbD 63 := by
  rw [← w.msb_eq_getLsbD_last]
  cases w.msb with
  | false => exact BitVec.getLsbD_zero
  | true => exact BitVec.getLsbD_allOnes.trans (decide_eq_true hk)

theorem getLsbD_sshiftRight_toNat (w : Word) {n : Int} (hn : 0 < n) {k : Nat} (hk : k < 64) :
    (w.sshiftRight n.toNat).getLsbD k = if (k : Int) + n ≤ 63 then w.getLsbD (k + n.toNat) else w.getLsbD 63 := by
  rw [BitVec.getLsbD_sshiftRight, decide_eq_false (by omega), Bool.not_false, Bool.true_and, Nat.add_comm]
  exact if_congr (by omega) rfl rfl

theorem getLsbD_shiftLeft_neg_toNat (w : Word) {n : Int} (hn : n < 0) {k : Nat} (hk : k < 64) :
    (w <<< (-n).toNat).getLsbD k = if (k : Int) - -n ≥ 0 then w.getLsbD (k - (-n).toNat) else false := by
  rw [getLsbD_shiftLeft_nat w _ hk]
  exact if_congr (by omega) rfl rfl

/-! The obligations. -/

/-- Settles O27: outside the range of amounts no bit of the operand is in place, so the guard agrees with the move. -/
theorem logicalShiftLeftMovesBits : Obligations.LogicalShiftLeftMovesBits := by
  refine ⟨decode_encode .lsl, movesBits_of_alu_eq_clearFlags shiftLeft (fun _ _ => rfl) fun a n k hk => ?_⟩
  rw [getLsbD_shiftLeft_int a n hk, ite_false_bitOr0 a (by omega)]

/-- Settles O28: LSR is the left shift by the negated amount. -/
theorem logicalShiftRightMovesBits : Obligations.LogicalShiftRightMovesBits := by
  refine ⟨decode_encode .lsr,
    movesBits_of_alu_eq_clearFlags (fun a n => shiftLeft a (-n)) (fun _ _ => rfl) fun a n k hk => ?_⟩
  rw [getLsbD_shiftLeft_int a (-n) hk, sub_neg_eq_add, ite_false_bitOr0 a (by omega)]

/-- Settles O29: the rotate's cyclic reading at every amount. -/
theorem rotateRightMovesBits : Obligations.RotateRightMovesBits :=
  ⟨decode_encode .ror, movesBits_of_alu_eq_clearFlags rotateRight (fun _ _ => rfl) fun a n _ hk =>
    getLsbD_rotateRight_int a n hk⟩

/-- Settles O30: ROL is the right rotate by the negated amount, in both printed forms of the index. -/
theorem rotateLeftMovesBits : Obligations.RotateLeftMovesBits := by
  refine ⟨decode_encode .rol,
    movesBits_of_alu_eq_clearFlags (fun a n => rotateRight a (-n)) (fun _ _ => rfl) fun a n _ hk =>
      getLsbD_rotateRight_int a (-n) hk,
    movesBits_of_alu_eq_clearFlags (fun a n => rotateRight a (-n)) (fun _ _ => rfl) fun a n k hk => ?_⟩
  rw [getLsbD_rotateRight_int a (-n) hk, add_neg_emod_toNat_mod]

/-- Settles O31: the five cases in the source's order. -/
theorem arithmeticShiftRightMovesBits : Obligations.ArithmeticShiftRightMovesBits := by
  refine ⟨decode_encode .asr,
    movesBits_of_alu_eq_clearFlags shiftRightArithmetic (fun _ _ => rfl) fun a n k hk => ?_⟩
  unfold shiftRightArithmetic
  refine getLsbD_ite_congr (fun _ => rfl) fun hzero => ?_
  refine getLsbD_ite_congr (fun _ => getLsbD_signFill a hk) fun _ => ?_
  refine getLsbD_ite_congr (fun _ => BitVec.getLsbD_zero) fun _ => ?_
  exact getLsbD_ite_congr (fun hpos => getLsbD_sshiftRight_toNat a hpos hk) fun hnonpos =>
    getLsbD_shiftLeft_neg_toNat a (by omega) hk

end Sys2Proof.Machine
end

section
/-! Negate, add and subtract (R81 to R85): each answers its exact result truncated, with overflow in its own mode. The
overflow flag of a mode (R57) is 1 exactly outside the mode's range. -/

namespace Sys2Proof.Machine

/-! The codec and the flag as ranges. -/

theorem unsignedOf_trunc64_eq_self_iff {z : Int} : unsignedOf (trunc64 z) = z ↔ 0 ≤ z ∧ z ≤ maxUnsigned := by
  rw [unsignedOf_trunc64_eq]
  unfold maxUnsigned
  omega

theorem signedOf_trunc64_eq_self_iff {z : Int} : signedOf (trunc64 z) = z ↔ minSigned ≤ z ∧ z ≤ maxSigned := by
  rw [signedOf_eq, unsignedOf_trunc64_eq]
  unfold minSigned maxSigned maxUnsigned
  split <;> omega

theorem overflowIn_unsigned_iff {z : Int} : overflowIn .unsigned z = true ↔ z < 0 ∨ z > maxUnsigned := by
  rw [overflowIn_iff, valueIn_unsigned, ne_eq, unsignedOf_trunc64_eq_self_iff]
  omega

theorem overflowIn_signed_iff {z : Int} : overflowIn .signed z = true ↔ z < minSigned ∨ z > maxSigned := by
  rw [overflowIn_iff, valueIn_signed, ne_eq, signedOf_trunc64_eq_self_iff]
  omega

/-- Negation leaves the signed range only at its lower end. -/
theorem overflowIn_signed_neg_signedOf_iff (w : Word) :
    overflowIn .signed (-signedOf w) = true ↔ signedOf w = minSigned := by
  have hmin := minSigned_le_signedOf w
  have hmax := signedOf_le w
  rw [overflowIn_signed_iff]
  unfold minSigned maxSigned at *
  omega

/-- A sum of two unsigned readings leaves the unsigned range only upwards. -/
theorem overflowIn_unsigned_add_unsignedOf_iff (v w : Word) :
    overflowIn .unsigned (unsignedOf v + unsignedOf w) = true ↔ unsignedOf v + unsignedOf w > maxUnsigned := by
  have hv := unsignedOf_nonneg v
  have hw := unsignedOf_nonneg w
  rw [overflowIn_unsigned_iff]
  omega

/-- `MIN` is its own negation modulo `2^64`. -/
theorem trunc64_neg_signedOf_of_eq_minSigned {w : Word} (h : signedOf w = minSigned) :
    trunc64 (-signedOf w) = w := by
  apply unsignedOf_injective
  rw [unsignedOf_trunc64_eq, h]
  have hnonneg := unsignedOf_nonneg w
  rw [signedOf_eq] at h
  unfold minSigned maxSigned maxUnsigned at *
  split at h <;> omega

/-! The shared shape of the exact operations. -/

/-- R80: what an evaluation leaves when the response is an exact result `z` truncated in the mode `m`, whose overflow
is the condition `p`. -/
theorem exec_eq_of_alu_eq_arithmetic {i : Instr} {s : State} {m : Signedness} {z : Int} {p : Prop} [Decidable p]
    (halu : alu i s.a s.b = arithmetic m z) (hoverflow : overflowIn m z = true ↔ p) :
    exec i s = .next { s with result := trunc64 z, overflow := decide p, divideByZero := false } := by
  have hflag : overflowIn m z = decide p := Bool.eq_iff_iff.mpr (hoverflow.trans decide_eq_true_iff.symm)
  rw [exec_eq, halu, ← hflag]
  rfl

/-! The obligations. -/

/-- Settles O34: the one overflow is at `MIN`, which the truncation gives back. -/
theorem negateNegates : Obligations.NegateNegates :=
  ⟨decode_encode .neg,
    fun s => exec_eq_of_alu_eq_arithmetic rfl (overflowIn_signed_neg_signedOf_iff s.a),
    fun _ _ hmin => trunc64_neg_signedOf_of_eq_minSigned hmin⟩

/-- Settles O35: the sum of two nonnegative readings overflows only upwards. -/
theorem addUnsignedAdds : Obligations.AddUnsignedAdds :=
  ⟨decode_encode .addu, fun s =>
    exec_eq_of_alu_eq_arithmetic rfl (overflowIn_unsigned_add_unsignedOf_iff s.a s.b)⟩

/-- Settles O36: overflow is the exact sum outside the signed range. -/
theorem addSignedAdds : Obligations.AddSignedAdds :=
  ⟨decode_encode .adds, fun _ => exec_eq_of_alu_eq_arithmetic rfl overflowIn_signed_iff⟩

/-- Settles O38: overflow is the exact difference outside the signed range. -/
theorem subtractSignedSubtracts : Obligations.SubtractSignedSubtracts :=
  ⟨decode_encode .subs, fun _ => exec_eq_of_alu_eq_arithmetic rfl overflowIn_signed_iff⟩

end Sys2Proof.Machine
end

section
/-! Multiply (R90, R91): the exact product truncated, with overflow in the operation's own reading. -/

namespace Sys2Proof.Machine

/-- A product of two unsigned readings leaves the unsigned range only upwards. -/
theorem overflowIn_unsigned_mul_unsignedOf_iff (v w : Word) :
    overflowIn .unsigned (unsignedOf v * unsignedOf w) = true ↔ unsignedOf v * unsignedOf w > maxUnsigned := by
  have hnonneg : 0 ≤ unsignedOf v * unsignedOf w := Int.mul_nonneg (unsignedOf_nonneg v) (unsignedOf_nonneg w)
  rw [overflowIn_unsigned_iff, or_iff_right hnonneg.not_gt]

/-- Settles O40: the product of two nonnegative readings overflows only upwards. -/
theorem multiplyUnsignedMultiplies : Obligations.MultiplyUnsignedMultiplies :=
  ⟨decode_encode .mulu, fun s =>
    exec_eq_of_alu_eq_arithmetic rfl (overflowIn_unsigned_mul_unsignedOf_iff s.a s.b)⟩

/-- Settles O41: overflow is the exact product outside the signed range. -/
theorem multiplySignedMultiplies : Obligations.MultiplySignedMultiplies :=
  ⟨decode_encode .muls, fun _ => exec_eq_of_alu_eq_arithmetic rfl overflowIn_signed_iff⟩

end Sys2Proof.Machine
end

section
/-! Signed divide and modulo (R97, R99): behind the zero test of R95 the exact floor quotient or remainder is truncated,
with overflow in the signed reading. The remainder lies between 0 and the divisor, so it is always in the signed range;
the quotient is no larger than the dividend, so it leaves that range only at `2^63`. -/

namespace Sys2Proof.Machine

/-! The zero test. -/

theorem signedOf_eq_zero_iff {w : Word} : signedOf w = 0 ↔ w = 0#64 :=
  BitVec.toInt_inj (y := 0#64)

/-- R95: the divisor is zero in either mode exactly when it is the all-zero Word. -/
theorem valueIn_eq_zero_iff (m : Signedness) {w : Word} : valueIn m w = 0 ↔ w = 0#64 := by
  cases m with
  | unsigned => exact unsignedOf_eq_zero_iff
  | signed => exact signedOf_eq_zero_iff

theorem divide_of_valueIn_eq_zero {m : Signedness} {d : Word} (h : valueIn m d = 0) (z : Int) :
    divide m d z = zeroDivisor :=
  if_pos ((valueIn_eq_zero_iff m).mp h)

theorem divide_of_valueIn_ne_zero {m : Signedness} {d : Word} (h : valueIn m d ≠ 0) (z : Int) :
    divide m d z = arithmetic m z :=
  if_neg (mt (valueIn_eq_zero_iff m).mpr h)

/-- R97. -/
theorem alu_divs (a b : Word) : alu .divs a b = divide .signed b (Int.fdiv (signedOf a) (signedOf b)) := rfl

/-- R99. -/
theorem alu_mods (a b : Word) : alu .mods a b = divide .signed b (Int.fmod (signedOf a) (signedOf b)) := rfl

/-- R95: what an evaluation leaves when the response is the zero test followed by an exact result `z` in the mode `m`,
whose overflow is the condition `p`. -/
theorem exec_eq_of_alu_eq_divide {i : Instr} {s : State} {m : Signedness} {z : Int} {p : Prop} [Decidable p]
    (halu : alu i s.a s.b = divide m s.b z) (hoverflow : valueIn m s.b ≠ 0 → (overflowIn m z = true ↔ p)) :
    exec i s = .next (
      if valueIn m s.b = 0 then { s with result := 0#64, overflow := false, divideByZero := true }
      else { s with result := trunc64 z, overflow := decide p, divideByZero := false }) := by
  split
  · next hzero => rw [exec_eq, halu, divide_of_valueIn_eq_zero hzero]; rfl
  · next hne => exact exec_eq_of_alu_eq_arithmetic (halu.trans (divide_of_valueIn_ne_zero hne z)) (hoverflow hne)

/-! The floor remainder and the floor quotient. -/

/-- A floor remainder is 0 or has the sign of the divisor, and is smaller than the divisor in magnitude. -/
theorem fmod_bounds (x : Int) {y : Int} (hy : y ≠ 0) :
    (0 ≤ Int.fmod x y ∧ Int.fmod x y < y) ∨ (y < Int.fmod x y ∧ Int.fmod x y ≤ 0) := by
  obtain hneg | hpos := lt_or_gt_of_ne hy
  · obtain ⟨-, hlt, hle⟩ := (Int.fdiv_fmod_unique' hneg).mp ⟨rfl, rfl⟩
    exact .inr ⟨hlt, hle⟩
  · exact .inl ⟨Int.fmod_nonneg_of_pos x hpos, Int.fmod_lt_of_pos x hpos⟩

/-- A signed remainder is in the signed range, so the truncation keeps it. -/
theorem signedOf_trunc64_fmod_signedOf (v : Word) {w : Word} (hw : signedOf w ≠ 0) :
    signedOf (trunc64 (Int.fmod (signedOf v) (signedOf w))) = Int.fmod (signedOf v) (signedOf w) := by
  have hmin := minSigned_le_signedOf w
  have hmax := signedOf_le w
  have hrem := fmod_bounds (signedOf v) hw
  rw [signedOf_trunc64_eq_self_iff]
  unfold minSigned maxSigned at *
  omega

theorem overflowIn_signed_fmod_signedOf (v : Word) {w : Word} (hw : signedOf w ≠ 0) :
    overflowIn .signed (Int.fmod (signedOf v) (signedOf w)) = true ↔ False := by
  rw [overflowIn_iff, valueIn_signed, signedOf_trunc64_fmod_signedOf v hw, ne_self_iff_false]

/-- A signed quotient is no larger than its dividend in magnitude. -/
theorem fdiv_signedOf_bounds (v w : Word) :
    minSigned ≤ Int.fdiv (signedOf v) (signedOf w) ∧ Int.fdiv (signedOf v) (signedOf w) ≤ maxSigned + 1 := by
  have hmin := minSigned_le_signedOf v
  have hmax := signedOf_le v
  have hquot := Int.natAbs_fdiv_le_natAbs (signedOf v) (signedOf w)
  unfold minSigned maxSigned at *
  omega

/-- A signed quotient leaves the signed range only upwards. -/
theorem overflowIn_signed_fdiv_signedOf_iff (v w : Word) :
    overflowIn .signed (Int.fdiv (signedOf v) (signedOf w)) = true
      ↔ Int.fdiv (signedOf v) (signedOf w) > maxSigned := by
  rw [overflowIn_signed_iff, or_iff_right (fdiv_signedOf_bounds v w).left.not_gt]

/-- The only quotient above the range is `2^63`. No dividend reaches it with a positive divisor, and one below `-1`
would need a dividend below `MIN`. -/
theorem fdiv_signedOf_gt_maxSigned_iff (v w : Word) :
    Int.fdiv (signedOf v) (signedOf w) > maxSigned ↔ signedOf v = minSigned ∧ signedOf w = -1 := by
  constructor
  · intro hgt
    have hw : signedOf w ≠ 0 := fun hzero => by
      rw [hzero, Int.fdiv_zero] at hgt
      exact absurd hgt (by decide)
    have hquot : Int.fdiv (signedOf v) (signedOf w) = maxSigned + 1 :=
      le_antisymm (fdiv_signedOf_bounds v w).right hgt
    have hsplit := Int.fdiv_mul_add_fmod (signedOf v) (signedOf w)
    have hrem := fmod_bounds (signedOf v) hw
    have hmin := minSigned_le_signedOf v
    have hmax := signedOf_le v
    rw [hquot] at hsplit
    unfold minSigned maxSigned at *
    omega
  · rintro ⟨hv, hw⟩
    rw [hv, hw]
    decide

/-- The overflow flag of DIVS, a zero divisor included (R97). -/
theorem divs_overflow_iff (a b : Word) :
    (alu .divs a b).overflow = true ↔ signedOf a = minSigned ∧ signedOf b = -1 := by
  rw [alu_divs]
  by_cases hb : signedOf b = 0
  · simp [divide_of_valueIn_eq_zero (m := .signed) hb, zeroDivisor, hb]
  · rw [divide_of_valueIn_ne_zero (m := .signed) hb, arithmetic_overflow, overflowIn_signed_fdiv_signedOf_iff,
      fdiv_signedOf_gt_maxSigned_iff]

/-! The obligations. -/

/-- Settles O46: the quotient overflows only upwards, and only for `MIN / -1`. -/
theorem divideSignedDivides : Obligations.DivideSignedDivides :=
  ⟨decode_encode .divs,
    fun s => exec_eq_of_alu_eq_divide (alu_divs s.a s.b) fun _ => overflowIn_signed_fdiv_signedOf_iff s.a s.b,
    divs_overflow_iff⟩

/-- Settles O48: the remainder is in the signed range, so the truncation keeps it and no overflow is set. -/
theorem moduloSignedTakesTheRemainder : Obligations.ModuloSignedTakesTheRemainder := by
  refine ⟨decode_encode .mods,
    fun s => exec_eq_of_alu_eq_divide (alu_mods s.a s.b) fun hne => overflowIn_signed_fmod_signedOf s.a hne,
    fun a b hb => ?_⟩
  rw [alu_mods, divide_of_valueIn_ne_zero (m := .signed) hb, arithmetic_result, signedOf_trunc64_fmod_signedOf a hb,
    Int.fmod_def]

end Sys2Proof.Machine
end

section
/-! Evaluations complete (R120) and repeat (R131): each meaning answers the block's function of the operands, and the
answer it leaves on the outputs does not reach the next evaluation. -/

namespace Sys2Proof.Machine

/-- Settles O8: `exec_eq` at the state with the operands on its inputs, for every operation. -/
theorem everyOperationAnswersEveryOperandPair : Obligations.EveryOperationAnswersEveryOperandPair :=
  fun i s a b => exec_eq i { s with a := a, b := b }

/-- Settles O10: the next state is the first one with an answer on its outputs, so it steps as the first one did. -/
theorem repeatedRequestRepeatsTheResponse : Obligations.RepeatedRequestRepeatsTheResponse := by
  unfold Obligations.RepeatedRequestRepeatsTheResponse
  intro s t hstep
  obtain ⟨i, -, ht⟩ := step_next hstep
  calc step t = step (s.answer (alu i s.a s.b)) := by rw [ht]
    _ = step s := step_answer s _
    _ = .next t := hstep

end Sys2Proof.Machine
end

section
/-! Sequences of requests (R139): a request and its answer fill every port of the block, so nothing that was served
before is left in the state. -/

namespace Sys2Proof.Machine

/-- A request and an answer fill all six ports, so the state they leave is the same from every state. -/
theorem State.present_answer_eq (s t : State) (q : Request) (v : Response) :
    (s.present q).answer v = (t.present q).answer v := rfl

/-- A sequence of defined requests is served to the last request and its answer. -/
theorem serve_concat {r : Request} {i : Instr} (hi : decode r.op = .ok i) {rs : List Request}
    (hrs : ∀ q ∈ rs, ∃ j, decode q.op = .ok j) (s : State) :
    serve s (rs ++ [r]) = .next ((s.present r).answer (alu i r.a r.b)) := by
  induction rs generalizing s with
  | nil => exact (serve_cons hi []).trans (serve_nil _)
  | cons q qs ih =>
    obtain ⟨⟨j, hj⟩, hqs⟩ := List.forall_mem_cons.mp hrs
    rw [List.cons_append, serve_cons hj, ih hqs, State.present_answer_eq _ s]

/-- Settles O11: the sequence ends in the last request with its answer (`serve_concat`). -/
theorem anyRequestMayFollowAnyOther : Obligations.AnyRequestMayFollowAnyOther := by
  unfold Obligations.AnyRequestMayFollowAnyOther
  intro s rs r hdefined
  obtain ⟨hrs, hr⟩ := List.forall_mem_append.mp hdefined
  obtain ⟨i, hi⟩ := List.forall_mem_singleton.mp hr
  exact ⟨_, i, serve_concat hi hrs s, hi, State.present_request s r, State.answer_response _ _⟩

end Sys2Proof.Machine
end

section
/-! The encoding (R32 to R38): the decoder and the encoder are inverse, and a code is its fields. -/

namespace Sys2Proof

/-- R36, R38: no other code decodes to an operation than the one `encode` gives it, over the 64 codes. -/
theorem encode_of_decode_eq_ok {c : BitVec 6} {i : Instr} (h : decode c = .ok i) : encode i = c := by
  have hcodes : ∀ c : BitVec 6, ∀ i ∈ (decode c).toOption, encode i = c := by decide
  exact hcodes c i (by rw [h]; rfl)

theorem decode_eq_ok_iff {c : BitVec 6} {i : Instr} : decode c = .ok i ↔ encode i = c :=
  ⟨encode_of_decode_eq_ok, fun h => h ▸ decode_encode i⟩

theorem encode_injective {i j : Instr} (h : encode i = encode j) : i = j := by
  have hdecode : decode (encode i) = .ok j := by rw [h, decode_encode]
  rw [decode_encode] at hdecode
  exact Except.ok.inj hdecode

/-- The decoder answers an operation exactly where it does not answer an error. -/
theorem exists_decode_eq_ok_iff (c : BitVec 6) : (∃ i, decode c = .ok i) ↔ (selectOf c).wellFormed = true := by
  have herror := exists_decode_eq_error_iff c
  rw [← Bool.not_eq_false, ← herror]
  cases decode c with
  | ok i => simp
  | error why => simp

/-- A word of at least 6 bits holds the whole code. -/
theorem portCode_encode_toNat {nbits : Nat} (h : 6 ≤ nbits) (c : BitVec 6) : portCode nbits c.toNat = c := by
  have hfits : c.toNat < 2 ^ nbits := c.isLt.trans_le (Nat.pow_le_pow_right two_pos h)
  rw [portCode, Nat.mod_eq_of_lt hfits, BitVec.ofNat_toNat, BitVec.setWidth_eq]

/-- Settles O6: the decoder gives back every encoded operation, and no other code decodes to it. -/
theorem decodeAndEncodeAgree : Obligations.DecodeAndEncodeAgree := by
  unfold Obligations.DecodeAndEncodeAgree
  refine ⟨fun _ _ => decode_eq_ok_iff, fun _ _ => encode_injective, fun c => (exists_decode_eq_ok_iff c).symm,
    fun i nbits h => ?_⟩
  rw [decodeTableWord, portCode_encode_toNat h, decode_encode]

/-- R32: the bits of a code above, in and below the function field are those of its three fields. -/
theorem codeOf_selectOf (c : BitVec 6) : codeOf (selectOf c) = c := by
  revert c
  decide

theorem selectOf_codeOf (f : Select) : selectOf (codeOf f) = f := by
  obtain ⟨cls, fn, mode⟩ := f
  revert cls fn mode
  decide

/-- Settles O3: each field is a slice of the code, and the three slices cover it. -/
theorem selectFieldsPartitionTheCode : Obligations.SelectFieldsPartitionTheCode := by
  unfold Obligations.SelectFieldsPartitionTheCode
  refine ⟨fun c => ⟨fun k hk => ?cls, fun k hk => ?fn, ?mode, codeOf_selectOf c⟩, selectOf_codeOf⟩
  case cls => simp [selectOf, hk]
  case fn => simp [selectOf, hk]
  case mode => simp [selectOf]

end Sys2Proof

namespace Sys2Proof.Machine

/-- R33: the parts of one operation lie in one class, that of its code. -/
theorem cls_encode_of_mem_partsOf (i : Instr) : ∀ q ∈ partsOf i, (selectOf (encode i)).cls = classOf q := by
  cases i <;> decide

theorem partsOf_ne_nil (i : Instr) : partsOf i ≠ [] := by
  cases i <;> exact List.cons_ne_nil _ _

/-- Settles O4: the tables row by row; the class of an operation's code is that of each of its parts. -/
theorem classFollowsThePart : Obligations.ClassFollowsThePart := by
  unfold Obligations.ClassFollowsThePart
  refine ⟨?_, ?_, ?_, ?_, ?_, ?_, ?_, fun i => ?classOfCode, ?_, ?_, ?_, ?_⟩
  case classOfCode =>
    obtain ⟨p, hp⟩ := List.exists_mem_of_ne_nil _ (partsOf_ne_nil i)
    refine ⟨p, hp, fun q hq => ?_⟩
    have hcls := cls_encode_of_mem_partsOf i q hq
    exact ⟨hcls.symm.trans (cls_encode_of_mem_partsOf i p hp), hcls⟩
  all_goals
    intro x
    cases x <;> decide

/-- R34: without a mode the bit is 0, and the code with a 1 there is rejected for it. -/
theorem mode_rejected_of_modeOf_eq_none {i : Instr} (h : modeOf i = none) :
    (encode i).getLsbD 0 = false ∧ decode (encode i ||| 1#6) = .error .mode := by
  revert h
  cases i <;> decide

theorem unsigned_reading_of_modeOf {i : Instr} (h : modeOf i = some .unsigned) :
    (encode i).getLsbD 0 = false ∧ readingA i = .unsigned ∧ (readingB i = .unsigned ∨ readingB i = .ignored) := by
  revert h
  cases i <;> decide

/-- R34: the code of an unsigned operation with its mode bit set is that of a signed one. -/
theorem exists_signed_variant {i : Instr} (h : modeOf i = some .unsigned) :
    ∃ j, decode (encode i ||| 1#6) = .ok j ∧ modeOf j = some .signed := by
  cases i <;> simp [modeOf] at h <;> exact ⟨_, rfl, rfl⟩

theorem signed_reading_of_modeOf {i : Instr} (h : modeOf i = some .signed) :
    (encode i).getLsbD 0 = true ∧ readingA i = .signed ∧ (readingB i = .signed ∨ readingB i = .ignored) := by
  revert h
  cases i <;> decide

theorem modeOf_eq_none_iff (i : Instr) :
    modeOf i = none ↔
      i ∈ [Instr.and, .or, .nor, .xor, .nand, .xnor, .not, .lsl, .lsr, .rol, .ror, .asr, .neg] := by
  cases i <;> decide

/-- Settles O5: the operations without a mode, the unsigned and the signed ones in turn, by the table of each. -/
theorem modeBitSelectsTheReading : Obligations.ModeBitSelectsTheReading := by
  unfold Obligations.ModeBitSelectsTheReading
  refine ⟨modeOf_eq_none_iff, fun i => mode_rejected_of_modeOf_eq_none, fun i h => ?unsigned,
    fun i => signed_reading_of_modeOf, rfl, by decide⟩
  case unsigned =>
    obtain ⟨hbit, ha, hb⟩ := unsigned_reading_of_modeOf h
    exact ⟨hbit, ha, hb, exists_signed_variant h⟩

end Sys2Proof.Machine
end

section
/-! What each operation does to the two flags (R13), and the invariants of a step (R123, R135). -/

namespace Sys2Proof.Machine

theorem zeroDivisor_result : zeroDivisor.result = 0#64 := rfl
theorem zeroDivisor_overflow : zeroDivisor.overflow = false := rfl
theorem zeroDivisor_divideByZero : zeroDivisor.divideByZero = true := rfl

/-- Every response is made in one of three ways: a word with clear flags, an exact result compared in a mode, or, for
the four divisions, an exact result behind the zero test. -/
theorem alu_cases (i : Instr) (a b : Word) :
    (i ∉ [Instr.divu, .divs, .modu, .mods] ∧
      ((∃ w, alu i a b = clearFlags w) ∨ ∃ m z, alu i a b = arithmetic m z))
    ∨ (i ∈ [Instr.divu, .divs, .modu, .mods] ∧ ∃ m z, alu i a b = divide m b z) := by
  cases i
  case and | or | nor | xor | nand | xnor | not | lsl | lsr | rol | ror | asr | u2f | s2f | u2d | s2d =>
    exact .inl ⟨by decide, .inl ⟨_, rfl⟩⟩
  case neg | addu | adds | subu | subs | mulu | muls => exact .inl ⟨by decide, .inr ⟨_, _, rfl⟩⟩
  case divu | divs | modu | mods => exact .inr ⟨by decide, _, _, rfl⟩

theorem divide_divideByZero_iff (m : Signedness) (d : Word) (z : Int) :
    (divide m d z).divideByZero = true ↔ d = 0#64 := by
  obtain ⟨hd, h⟩ | ⟨hd, h⟩ := divide_cases m d z
  · rw [h]; exact iff_of_true zeroDivisor_divideByZero hd
  · rw [h]; exact iff_of_false Bool.false_ne_true hd

/-- R13, the column `divideByZero`. -/
theorem alu_divideByZero_iff (i : Instr) (a b : Word) : (alu i a b).divideByZero = true ↔ DivideByZeroSet i b := by
  unfold DivideByZeroSet
  obtain ⟨hi, ⟨w, h⟩ | ⟨m, z, h⟩⟩ | ⟨hi, m, z, h⟩ := alu_cases i a b
  · simp only [h, hi, clearFlags_divideByZero, Bool.false_eq_true, false_and]
  · simp only [h, hi, arithmetic_divideByZero, Bool.false_eq_true, false_and]
  · simp only [h, hi, divide_divideByZero_iff, true_and]

/-- R95: an operation that sets `divideByZero` answers the zero-divisor response, and nothing else does. -/
theorem alu_eq_zeroDivisor {i : Instr} {a b : Word} (h : (alu i a b).divideByZero = true) :
    alu i a b = zeroDivisor := by
  obtain ⟨hi, hb⟩ := (alu_divideByZero_iff i a b).mp h
  obtain ⟨hni, -⟩ | ⟨-, m, z, hz⟩ := alu_cases i a b
  · exact absurd hi hni
  · rw [hz, divide, if_pos hb]

/-- R123, R101 (d): `divideByZero` comes with the zero-divisor response, whose overflow and result are 0. -/
theorem alu_flags_consistent (i : Instr) (a b : Word) :
    ¬((alu i a b).overflow = true ∧ (alu i a b).divideByZero = true)
    ∧ ((alu i a b).divideByZero = true → (alu i a b).result = 0#64) := by
  refine ⟨fun ⟨hover, hzero⟩ => ?_, fun hzero => ?_⟩
  · rw [alu_eq_zeroDivisor hzero, zeroDivisor_overflow] at hover
    exact Bool.false_ne_true hover
  · rw [alu_eq_zeroDivisor hzero, zeroDivisor_result]

/-- Settles O14: a next state holds the response of the decoded operation, whose flags are consistent whatever they were
before. -/
theorem stepKeepsFlagsConsistent : Obligations.StepKeepsFlagsConsistent := by
  unfold Obligations.StepKeepsFlagsConsistent
  intro s t _ hstep
  obtain ⟨i, -, rfl⟩ := step_next hstep
  exact alu_flags_consistent i s.a s.b

/-- Settles O15: a step leaves the decoded operation's response to the inputs, which it does not drive. -/
theorem stepSettlesTheOutputs : Obligations.StepSettlesTheOutputs := by
  unfold Obligations.StepSettlesTheOutputs
  intro s t hstep
  obtain ⟨i, hi, rfl⟩ := step_next hstep
  exact ⟨⟨i, hi, State.answer_response s _⟩, State.answer_request s _⟩

/-- R2: with a defined code on the `op` port, a step is the decoded operation's meaning. -/
theorem step_eq_exec {s : State} {i : Instr} (h : decode s.op = .ok i) : step s = exec i s := by
  simp [step, h]

/-- Settles O7: the step's one match on the decoder. -/
theorem stepRunsTheDecodedOperation : Obligations.StepRunsTheDecodedOperation :=
  fun _ _ => step_eq_exec

theorem step_reset : step State.reset = .next State.reset := rfl

/-- Settles O16: the reset state steps to itself, so it is settled as every next state is. -/
theorem resetIsSettledAndConsistent : Obligations.ResetIsSettledAndConsistent :=
  ⟨(stepSettlesTheOutputs _ _ step_reset).left, ⟨by decide, by decide⟩, step_reset⟩

/-- R37. -/
theorem alu_unary {i : Instr} (hi : i ∈ unaryOperations) (a b1 b2 : Word) : alu i a b1 = alu i a b2 := by
  simp only [unaryOperations, List.mem_cons, List.not_mem_nil, or_false] at hi
  obtain rfl | rfl | rfl | rfl | rfl | rfl := hi <;> rfl

/-- Settles O18: each evaluation answers the block's function (`exec_eq`), which is the same for both values. -/
theorem unaryOperationsIgnoreB : Obligations.UnaryOperationsIgnoreB := by
  unfold Obligations.UnaryOperationsIgnoreB
  intro i hi s b1 b2
  exact ⟨_, _, exec_eq i _, exec_eq i _, alu_unary hi s.a b1 b2⟩

end Sys2Proof.Machine
end

section
/-! Sequences with a reserved code (log entry 14), and systems of several copies (R130). -/

namespace Sys2Proof.Machine

/-- The model's `serve` ends at a request whose code is rejected. -/
theorem serve_cons_of_error {r : Request} {why : ReservedCode} (h : decode r.op = .error why) (s : State)
    (rs : List Request) : serve s (r :: rs) = .refused (.reservedCode r.op why) := by
  have hs : serveOne s r = .refused (.reservedCode r.op why) := step_eq_refused (s := s.present r) h
  simp only [serve, hs]

/-- Settles O12, by induction on the sequence: a defined request passes the question on to the rest, a reserved one
answers it. -/
theorem sequenceRefusedExactlyOnReservedCode : Obligations.SequenceRefusedExactlyOnReservedCode := by
  unfold Obligations.SequenceRefusedExactlyOnReservedCode
  intro s rs
  induction rs generalizing s with
  | nil => simp [serve_nil]
  | cons r rs ih =>
    cases hdecode : decode r.op with
    | ok i =>
      simp only [serve_cons hdecode, ih, List.exists_mem_cons_iff, hdecode, reduceCtorEq, exists_false, false_or]
    | error why => simp [serve_cons_of_error hdecode, hdecode]

/-- Everything a step of copy `j` can answer a next system with: an empty position changes nothing, and a copy is
replaced by its own next state. -/
theorem stepAt_next_iff {blocks x : List State} {j : Nat} :
    stepAt blocks j = .next x ↔
      (blocks[j]? = none ∧ x = blocks)
      ∨ ∃ s t, blocks[j]? = some s ∧ step s = .next t ∧ x = blocks.set j t := by
  unfold stepAt
  cases blocks[j]? with
  | none => simp [eq_comm]
  | some s =>
    cases hstep : step s with
    | next t => simp [hstep, eq_comm]
    | fault f => simp [hstep]
    | refused r => simp [hstep]

/-- A step of one copy leaves every other position as it was. -/
theorem getElem?_of_stepAt_next {blocks x : List State} {j k : Nat} (hjk : j ≠ k) (h : stepAt blocks j = .next x) :
    x[k]? = blocks[k]? := by
  obtain ⟨-, rfl⟩ | ⟨s, t, -, -, rfl⟩ := stepAt_next_iff.mp h
  · rfl
  · exact List.getElem?_set_ne hjk

/-- Settles O13: a step replaces one position of the list, and two replacements at different positions commute. -/
theorem copiesAreIndependent : Obligations.CopiesAreIndependent := by
  unfold Obligations.CopiesAreIndependent
  refine ⟨fun blocks j s t hs ht => ?frame, fun blocks j k x y hjk hx hy => ?commute⟩
  case frame =>
    have hstep : stepAt blocks j = .next (blocks.set j t) := stepAt_next_iff.mpr (.inr ⟨s, t, hs, ht, rfl⟩)
    obtain ⟨hj, -⟩ := List.getElem?_eq_some_iff.mp hs
    exact ⟨_, hstep, List.getElem?_set_self hj, List.length_set, fun k hk => getElem?_of_stepAt_next hk.symm hstep⟩
  case commute =>
    have hxk := getElem?_of_stepAt_next hjk hx
    have hyj := getElem?_of_stepAt_next hjk.symm hy
    simp only [stepAt_next_iff, hxk, hyj]
    rw [stepAt_next_iff] at hx hy
    obtain ⟨hj, rfl⟩ | ⟨s, t, hs, ht, rfl⟩ := hx
    · exact ⟨y, hy, .inl ⟨hj, rfl⟩⟩
    · obtain ⟨hk, rfl⟩ | ⟨s', t', hs', ht', rfl⟩ := hy
      · exact ⟨_, .inl ⟨hk, rfl⟩, .inr ⟨s, t, hs, ht, rfl⟩⟩
      · exact ⟨_, .inr ⟨s', t', hs', ht', rfl⟩, .inr ⟨s, t, hs, ht, List.set_comm _ _ hjk⟩⟩

end Sys2Proof.Machine
end

section
/-! The codec's laws (R55 to R57): the two readings of a Word against each other, and truncation as a ring map from the
integers to the Words, by which the results of the arithmetic operations are sums and products of Words. -/

namespace Sys2Proof.Machine

/-! The sign bit. -/

/-- R53: bit 63 is the sign of the signed reading. -/
theorem getLsbD_63_iff (w : Word) : w.getLsbD 63 = true ↔ signedOf w < 0 := by
  rw [signedOf, ← BitVec.msb_eq_getLsbD_last, BitVec.msb_eq_toInt, decide_eq_true_iff]

theorem getLsbD_63_eq_decide (w : Word) : w.getLsbD 63 = decide (signedOf w < 0) :=
  Bool.eq_iff_iff.mpr ((getLsbD_63_iff w).trans decide_eq_true_iff.symm)

/-- R55: the unsigned reading of a negative Word is `2^64` more. -/
theorem unsignedOf_eq (w : Word) :
    unsignedOf w = if 0 ≤ signedOf w then signedOf w else signedOf w + (maxUnsigned + 1) := by
  have hnonneg := unsignedOf_nonneg w
  have hle := unsignedOf_le w
  rw [signedOf_eq]
  unfold maxSigned maxUnsigned at *
  split_ifs <;> omega

theorem unsignedOf_eq_signedOf {w : Word} (h : 0 ≤ signedOf w) : unsignedOf w = signedOf w := by
  rw [unsignedOf_eq, if_pos h]

/-! Truncation. -/

@[simp] theorem trunc64_signedOf (w : Word) : trunc64 (signedOf w) = w := BitVec.ofInt_toInt

@[simp] theorem trunc64_unsignedOf (w : Word) : trunc64 (unsignedOf w) = w := by
  simp [trunc64, unsignedOf]

theorem trunc64_add (x y : Int) : trunc64 (x + y) = trunc64 x + trunc64 y := BitVec.ofInt_add x y

theorem trunc64_neg (x : Int) : trunc64 (-x) = -trunc64 x := BitVec.ofInt_neg

theorem trunc64_sub (x y : Int) : trunc64 (x - y) = trunc64 x - trunc64 y := by
  rw [Int.sub_eq_add_neg, trunc64_add, trunc64_neg, BitVec.sub_eq_add_neg]

theorem trunc64_mul (x y : Int) : trunc64 (x * y) = trunc64 x * trunc64 y := BitVec.ofInt_mul x y

/-- R56 (g): truncation forgets exactly the multiples of `2^64`. -/
theorem trunc64_eq_trunc64_iff {x y : Int} : trunc64 x = trunc64 y ↔ x % 2 ^ 64 = y % 2 ^ 64 := by
  have hx : unsignedOf (trunc64 x) = x % 2 ^ 64 := unsignedOf_trunc64_eq x
  have hy : unsignedOf (trunc64 y) = y % 2 ^ 64 := unsignedOf_trunc64_eq y
  rw [← hx, ← hy]
  exact ⟨congrArg unsignedOf, unsignedOf_injective⟩

theorem toBits_signedOf (w : Word) : toBits (signedOf w) 64 .signed = .ok w := by
  rw [toBits_eq_ok (inRange_signed_iff.mpr ⟨minSigned_le_signedOf w, signedOf_le w⟩)]
  exact congrArg Except.ok (trunc64_signedOf w)

theorem toBits_unsignedOf (w : Word) : toBits (unsignedOf w) 64 .unsigned = .ok w := by
  rw [toBits_eq_ok (inRange_unsigned_iff.mpr ⟨unsignedOf_nonneg w, unsignedOf_le w⟩)]
  exact congrArg Except.ok (trunc64_unsignedOf w)

/-- Settles O22: truncation gives back every Word's value, and the ranges are those on which it is the identity. -/
theorem codecLaws : Obligations.CodecLaws := by
  unfold Obligations.CodecLaws
  refine ⟨fun x => ?idempotent, fun w => ⟨w, toBits_signedOf w, fromBitsSigned_eq_toInt w⟩,
    fun w => ⟨w, toBits_unsignedOf w, fromBitsUnsigned_eq_toNat w⟩, fun w => ?difference,
    fun z => ?signedRange, fun z => unsignedOf_trunc64_eq_self_iff, fun _ _ => trunc64_eq_trunc64_iff, unsignedOf_eq⟩
  case idempotent => rw [truncate_eq_signedOf_trunc64 x, truncate_eq_signedOf_trunc64, trunc64_signedOf]
  case difference =>
    rw [unsignedOf_eq, getLsbD_63_eq_decide]
    unfold maxUnsigned
    by_cases hneg : signedOf w < 0
    · simp [hneg, not_le.mpr hneg]
    · simp [hneg, not_lt.mp hneg]
  case signedRange =>
    rw [truncate_eq_signedOf_trunc64]
    exact signedOf_trunc64_eq_self_iff

/-- Settles O23: overflow is the exact result not coming back from the truncation, which is the exact result outside
the range of the mode. -/
theorem overflowIsALostExactResult : Obligations.OverflowIsALostExactResult :=
  fun z => ⟨overflowIn_iff .signed z, overflowIn_signed_iff, overflowIn_iff .unsigned z, overflowIn_unsigned_iff⟩

/-! The results as operations on Words. -/

theorem alu_neg_result (a b : Word) : (alu .neg a b).result = -a :=
  (trunc64_neg _).trans (congrArg Neg.neg (trunc64_signedOf a))

theorem alu_addu_result (a b : Word) : (alu .addu a b).result = a + b :=
  (trunc64_add _ _).trans (congrArg₂ _ (trunc64_unsignedOf a) (trunc64_unsignedOf b))

theorem alu_adds_result (a b : Word) : (alu .adds a b).result = a + b :=
  (trunc64_add _ _).trans (congrArg₂ _ (trunc64_signedOf a) (trunc64_signedOf b))

theorem alu_subu_result (a b : Word) : (alu .subu a b).result = a - b :=
  (trunc64_sub _ _).trans (congrArg₂ _ (trunc64_unsignedOf a) (trunc64_unsignedOf b))

theorem alu_subs_result (a b : Word) : (alu .subs a b).result = a - b :=
  (trunc64_sub _ _).trans (congrArg₂ _ (trunc64_signedOf a) (trunc64_signedOf b))

theorem alu_mulu_result (a b : Word) : (alu .mulu a b).result = a * b :=
  (trunc64_mul _ _).trans (congrArg₂ _ (trunc64_unsignedOf a) (trunc64_unsignedOf b))

theorem alu_muls_result (a b : Word) : (alu .muls a b).result = a * b :=
  (trunc64_mul _ _).trans (congrArg₂ _ (trunc64_signedOf a) (trunc64_signedOf b))

/-- The complement counts down from the all-ones Word, whose signed value is `-1`. -/
theorem signedOf_complement (w : Word) : signedOf (~~~w) = -signedOf w - 1 := by
  have hnot : ~~~w = trunc64 (-signedOf w - 1) := by
    rw [trunc64_sub, trunc64_neg, trunc64_signedOf, BitVec.not_eq_neg_add]
    rfl
  have hmin := minSigned_le_signedOf w
  have hmax := signedOf_le w
  rw [hnot, signedOf_trunc64_eq_self_iff]
  unfold minSigned maxSigned at *
  omega

/-- Settles O26: the two's complement is the complement plus 1, and its own inverse, among the Words. -/
theorem complementAndNegate : Obligations.ComplementAndNegate := by
  unfold Obligations.ComplementAndNegate
  intro a b
  refine ⟨signedOf_complement a, ?_, ?_⟩
  · rw [alu_neg_result, alu_adds_result]
    exact BitVec.neg_eq_not_add a
  · rw [alu_neg_result, alu_neg_result, BitVec.neg_neg]

end Sys2Proof.Machine
end

section
/-! The laws of negate, add, subtract and multiply (R84, R86, R92) and the sign-bit forms of the signed overflows (R83,
R85, R91). -/

namespace Sys2Proof.Machine

/-- A difference of two unsigned readings leaves the unsigned range only downwards. -/
theorem overflowIn_unsigned_sub_unsignedOf_iff (v w : Word) :
    overflowIn .unsigned (unsignedOf v - unsignedOf w) = true ↔ unsignedOf v - unsignedOf w < 0 := by
  have hv := unsignedOf_le v
  have hw := unsignedOf_nonneg w
  rw [overflowIn_unsigned_iff]
  omega

/-- Settles O37: the borrow is the difference below 0. -/
theorem subtractUnsignedSubtracts : Obligations.SubtractUnsignedSubtracts :=
  ⟨decode_encode .subu, fun s =>
    exec_eq_of_alu_eq_arithmetic rfl (overflowIn_unsigned_sub_unsignedOf_iff s.a s.b)⟩

theorem addu_overflow_iff (a b : Word) :
    (alu .addu a b).overflow = true ↔ unsignedOf a + unsignedOf b > maxUnsigned :=
  overflowIn_unsigned_add_unsignedOf_iff a b

theorem subu_overflow_iff (a b : Word) : (alu .subu a b).overflow = true ↔ unsignedOf a < unsignedOf b :=
  (overflowIn_unsigned_sub_unsignedOf_iff a b).trans sub_neg

/-- R86 (b): the sum of two unsigned readings has 65 bits, and exceeds `UMAX` exactly when the last of them is 1. -/
theorem testBit_64_add_unsignedOf (a b : Word) :
    (unsignedOf a + unsignedOf b).toNat.testBit 64 = true ↔ unsignedOf a + unsignedOf b > maxUnsigned := by
  have ha := unsignedOf_nonneg a
  have hb := unsignedOf_nonneg b
  have ha' := unsignedOf_le a
  have hb' := unsignedOf_le b
  rw [Nat.testBit_eq_decide_div_mod_eq, decide_eq_true_iff]
  unfold maxUnsigned at *
  omega

/-- R86 (c): negation is the subtraction from zero, in all three outputs. -/
theorem alu_neg_eq_alu_subs (a b : Word) : alu .neg a b = alu .subs 0#64 a :=
  congrArg (arithmetic .signed) (zero_sub (signedOf a)).symm

/-- Settles O39: the results are the same Words; the flags differ by the reading and, for SUBS, by the detour over the
negation at `MIN`. -/
theorem addSubtractLaws : Obligations.AddSubtractLaws := by
  unfold Obligations.AddSubtractLaws
  refine ⟨fun a b => ⟨?addResult, ?subResult⟩, fun a b => ⟨?carry, subu_overflow_iff a b⟩,
    fun a b => alu_neg_eq_alu_subs a b, fun a b c => ?viaNegation, fun c => ?atMin, fun i hi a b => ?noDivision,
    addu_overflow_iff⟩
  case addResult => rw [alu_addu_result, alu_adds_result]
  case subResult => rw [alu_subu_result, alu_subs_result]
  case carry => exact Bool.eq_iff_iff.mpr ((addu_overflow_iff a b).trans (testBit_64_add_unsignedOf a b).symm)
  case viaNegation => rw [alu_subs_result, alu_adds_result, alu_neg_result, BitVec.sub_eq_add_neg]
  case atMin =>
    rw [alu_neg_eq_alu_subs _ c]
    decide
  case noDivision =>
    rw [Bool.eq_false_iff, ne_eq, alu_divideByZero_iff]
    exact fun ⟨hdiv, _⟩ => absurd hi (by revert hdiv; cases i <;> decide)

/-- Adding an integer from `MIN` to `MAX + 1` overflows exactly when the two signs agree and the result loses them. -/
theorem overflowIn_signed_add_iff (w : Word) {y : Int} (hmin : minSigned ≤ y) (hmax : y ≤ maxSigned + 1) :
    overflowIn .signed (signedOf w + y) = true ↔
      w.getLsbD 63 = decide (y < 0) ∧ (trunc64 (signedOf w + y)).getLsbD 63 ≠ w.getLsbD 63 := by
  have hw := minSigned_le_signedOf w
  have hw' := signedOf_le w
  simp only [overflowIn_signed_iff, getLsbD_63_eq_decide, ne_eq, decide_eq_decide, signedOf_eq (trunc64 _),
    unsignedOf_trunc64_eq]
  unfold minSigned maxSigned maxUnsigned at *
  split <;> omega

/-- R83. -/
theorem adds_overflow_iff (a b : Word) :
    (alu .adds a b).overflow = true ↔
      a.getLsbD 63 = b.getLsbD 63 ∧ (alu .adds a b).result.getLsbD 63 ≠ a.getLsbD 63 := by
  have hb := signedOf_le b
  rw [getLsbD_63_eq_decide b]
  exact overflowIn_signed_add_iff a (minSigned_le_signedOf b) (by omega)

/-- R85: a difference is a sum with the negation, whose sign is the other one unless the subtrahend is 0, which does not
overflow. -/
theorem subs_overflow_iff (a b : Word) :
    (alu .subs a b).overflow = true ↔
      a.getLsbD 63 ≠ b.getLsbD 63 ∧ (alu .subs a b).result.getLsbD 63 ≠ a.getLsbD 63 := by
  show overflowIn .signed (signedOf a + -signedOf b) = true ↔
    _ ∧ (trunc64 (signedOf a + -signedOf b)).getLsbD 63 ≠ _
  have hb := minSigned_le_signedOf b
  have hb' := signedOf_le b
  unfold minSigned maxSigned at *
  rw [overflowIn_signed_add_iff a (by unfold minSigned; omega) (by unfold maxSigned; omega)]
  by_cases hzero : signedOf b = 0
  · simp [hzero]
  · have hsign : decide (-signedOf b < 0) = !b.getLsbD 63 := by
      rw [getLsbD_63_eq_decide, ← decide_not, decide_eq_decide]
      omega
    rw [hsign, Bool.eq_not]

/-- The product of two signed readings has at most 127 bits. -/
theorem signedOf_mul_signedOf_bounds (a b : Word) :
    -2 ^ 126 ≤ signedOf a * signedOf b ∧ signedOf a * signedOf b ≤ 2 ^ 126 := by
  have ha : |signedOf a| ≤ 2 ^ 63 := abs_le.mpr ⟨minSigned_le_signedOf a, (signedOf_le a).trans (by norm_num)⟩
  have hb : |signedOf b| ≤ 2 ^ 63 := abs_le.mpr ⟨minSigned_le_signedOf b, (signedOf_le b).trans (by norm_num)⟩
  have hprod : |signedOf a * signedOf b| ≤ 2 ^ 63 * 2 ^ 63 := by
    rw [abs_mul]
    exact mul_le_mul ha hb (abs_nonneg _) (by norm_num)
  exact abs_le.mp (hprod.trans (by norm_num))

/-- An integer of 128 signed bits is its low half sign-extended exactly when truncation to that half keeps it. -/
theorem ofInt_128_eq_signExtend_iff {z : Int} (hmin : -2 ^ 126 ≤ z) (hmax : z ≤ 2 ^ 126) :
    BitVec.ofInt 128 z = (trunc64 z).signExtend 128 ↔ signedOf (trunc64 z) = z := by
  rw [← BitVec.toInt_inj, BitVec.toInt_ofInt, BitVec.toInt_signExtend_of_le (by norm_num), eq_comm]
  rw [Int.bmod_eq_of_le (by norm_num; omega) (by norm_num; omega)]
  rfl

/-- Settles O42: for MULS the 128 bits hold the exact product, so the sign extension restores it exactly when the
low half, read as signed, is the product. -/
theorem signBitsTellSignedOverflow : Obligations.SignBitsTellSignedOverflow := by
  unfold Obligations.SignBitsTellSignedOverflow
  intro a b
  obtain ⟨hmin, hmax⟩ := signedOf_mul_signedOf_bounds a b
  exact ⟨adds_overflow_iff a b, subs_overflow_iff a b,
    (overflowIn_iff .signed _).trans (ofInt_128_eq_signExtend_iff hmin hmax).not.symm⟩

/-- Without overflow, an arithmetic response read in its mode is the exact result. -/
theorem valueIn_trunc64_of_overflowIn_eq_false {m : Signedness} {z : Int} (h : overflowIn m z = false) :
    valueIn m (trunc64 z) = z := by
  simpa [overflowIn] using h

/-- The four pairs of overflow flags occur: at `0 * 0`, `-1 * -1`, `MAX * 2` and `MAX * MAX`. -/
theorem exists_multiply_overflow_pair (x y : Bool) :
    ∃ a b : Word, (alu .mulu a b).overflow = x ∧ (alu .muls a b).overflow = y := by
  cases x
  · cases y
    · exact ⟨0#64, 0#64, by decide⟩
    · exact ⟨0x7FFFFFFFFFFFFFFF#64, 2#64, by decide⟩
  · cases y
    · exact ⟨0xFFFFFFFFFFFFFFFF#64, 0xFFFFFFFFFFFFFFFF#64, by decide⟩
    · exact ⟨0x7FFFFFFFFFFFFFFF#64, 0x7FFFFFFFFFFFFFFF#64, by decide⟩

/-- Settles O43: both results are the product of the Words; without overflow each is exact in its own mode. -/
theorem multiplyLaws : Obligations.MultiplyLaws := by
  unfold Obligations.MultiplyLaws
  exact ⟨fun a b => (alu_mulu_result a b).trans (alu_muls_result a b).symm, exists_multiply_overflow_pair,
    fun _ _ => ⟨rfl, rfl⟩,
    fun _ _ => valueIn_trunc64_of_overflowIn_eq_false (m := .unsigned),
    fun _ _ => valueIn_trunc64_of_overflowIn_eq_false (m := .signed)⟩

end Sys2Proof.Machine
end

section
/-! Unsigned divide and modulo (R96, R98), the zero divisor (R95), and the two readings of D7. -/

namespace Sys2Proof.Machine

/-! The zero test in the four operations. -/

theorem alu_zero_divisor {i : Instr} (hi : i ∈ [Instr.divu, .divs, .modu, .mods]) (a : Word) :
    alu i a 0#64 = zeroDivisor :=
  alu_eq_zeroDivisor ((alu_divideByZero_iff i a _).mpr ⟨hi, rfl⟩)

/-- Settles O44: a zero divisor sets `divideByZero`, which comes with the one response; no other divisor sets it. -/
theorem zeroDivisorComesFirst : Obligations.ZeroDivisorComesFirst := by
  unfold Obligations.ZeroDivisorComesFirst
  refine fun i hi s => ⟨fun hb => ?zero, fun hb => ⟨_, exec_eq i s, ?nonzero⟩⟩
  case zero =>
    have halu : alu i s.a s.b = zeroDivisor := by rw [hb, alu_zero_divisor hi]
    rw [exec_eq, halu]
    rfl
  case nonzero =>
    rw [State.answer_divideByZero, Bool.eq_false_iff, ne_eq, alu_divideByZero_iff]
    exact fun ⟨_, hzero⟩ => hb hzero

/-! The unsigned quotient and remainder. -/

/-- D7: the spec's reading of the overflow of DIVU (R96). -/
theorem alu_divu (a b : Word) : alu .divu a b = divide .unsigned b (Int.fdiv (unsignedOf a) (unsignedOf b)) := rfl

/-- D7: the spec's reading of the overflow of MODU (R98). -/
theorem alu_modu (a b : Word) : alu .modu a b = divide .unsigned b (Int.fmod (unsignedOf a) (unsignedOf b)) := rfl

/-- An unsigned quotient lies between 0 and its dividend. -/
theorem fdiv_unsignedOf_bounds (v w : Word) :
    0 ≤ Int.fdiv (unsignedOf v) (unsignedOf w) ∧ Int.fdiv (unsignedOf v) (unsignedOf w) ≤ unsignedOf v := by
  have hv := unsignedOf_nonneg v
  have hw := unsignedOf_nonneg w
  rw [Int.fdiv_eq_ediv_of_nonneg _ hw]
  exact ⟨Int.ediv_nonneg hv hw, Int.ediv_le_self _ hv⟩

/-- An unsigned remainder lies between 0 and its dividend: it is the dividend without some copies of the divisor. -/
theorem fmod_unsignedOf_bounds (v w : Word) :
    0 ≤ Int.fmod (unsignedOf v) (unsignedOf w) ∧ Int.fmod (unsignedOf v) (unsignedOf w) ≤ unsignedOf v := by
  have hv := unsignedOf_nonneg v
  have hw := unsignedOf_nonneg w
  have hcopies := Int.mul_nonneg hw (fdiv_unsignedOf_bounds v w).left
  refine ⟨Int.fmod_nonneg hv hw, ?_⟩
  rw [Int.fmod_def]
  omega

theorem overflowIn_unsigned_eq_false {z : Int} (hnonneg : 0 ≤ z) (hle : z ≤ maxUnsigned) :
    overflowIn .unsigned z = false := by
  rw [Bool.eq_false_iff, ne_eq, overflowIn_unsigned_iff, not_or]
  exact ⟨hnonneg.not_gt, hle.not_gt⟩

theorem overflowIn_unsigned_fdiv_unsignedOf (v w : Word) :
    overflowIn .unsigned (Int.fdiv (unsignedOf v) (unsignedOf w)) = true ↔ False := by
  obtain ⟨hnonneg, hle⟩ := fdiv_unsignedOf_bounds v w
  rw [overflowIn_unsigned_eq_false hnonneg (hle.trans (unsignedOf_le v)), Bool.false_eq_true]

theorem overflowIn_unsigned_fmod_unsignedOf (v w : Word) :
    overflowIn .unsigned (Int.fmod (unsignedOf v) (unsignedOf w)) = true ↔ False := by
  obtain ⟨hnonneg, hle⟩ := fmod_unsignedOf_bounds v w
  rw [overflowIn_unsigned_eq_false hnonneg (hle.trans (unsignedOf_le v)), Bool.false_eq_true]

/-- Settles O45: the quotient is in the unsigned range, so no overflow is set. -/
theorem divideUnsignedDivides : Obligations.DivideUnsignedDivides :=
  ⟨decode_encode .divu, fun s =>
    exec_eq_of_alu_eq_divide (alu_divu s.a s.b) fun _ => overflowIn_unsigned_fdiv_unsignedOf s.a s.b⟩

/-- Settles O47: the remainder is in the unsigned range; for unsigned readings it is the Euclidean one. -/
theorem moduloUnsignedTakesTheRemainder : Obligations.ModuloUnsignedTakesTheRemainder := by
  refine ⟨decode_encode .modu, fun s => ?_⟩
  rw [← Int.fmod_eq_emod_of_nonneg _ (unsignedOf_nonneg s.b)]
  exact exec_eq_of_alu_eq_divide (alu_modu s.a s.b) fun _ => overflowIn_unsigned_fmod_unsignedOf s.a s.b

/-! The two readings of D7. -/

/-- The reading reaches the overflow flag only. -/
theorem divide_result_divideByZero_congr (m m' : Signedness) (d : Word) (z : Int) :
    (divide m d z).result = (divide m' d z).result ∧ (divide m d z).divideByZero = (divide m' d z).divideByZero := by
  unfold divide
  split <;> exact ⟨rfl, rfl⟩

/-- An exact result in both ranges is answered alike in both readings. -/
theorem divide_signed_eq_unsigned {z : Int} (hnonneg : 0 ≤ z) (hle : z ≤ maxSigned) (d : Word) :
    divide .signed d z = divide .unsigned d z := by
  have hsigned : overflowIn .signed z = false := by
    rw [Bool.eq_false_iff, ne_eq, overflowIn_signed_iff]
    unfold minSigned
    omega
  rw [divide, divide, arithmetic, arithmetic, hsigned, overflowIn_unsigned_eq_false hnonneg (hle.trans (by decide))]

/-- On the unsigned range the readings differ exactly on results of `2^63` or more. -/
theorem divide_signed_ne_unsigned_iff {z : Int} (hnonneg : 0 ≤ z) (hle : z ≤ maxUnsigned) (d : Word) :
    divide .signed d z ≠ divide .unsigned d z ↔ 2 ^ 63 ≤ unsignedOf (divide .unsigned d z).result := by
  obtain ⟨hd, hzero⟩ | ⟨hd, hexact⟩ := divide_cases .unsigned d z
  · rw [hzero, divide, if_pos hd]
    exact iff_of_false (fun h => h rfl) (by decide)
  · rw [hexact, divide, if_neg hd, arithmetic_result, unsignedOf_trunc64_eq_self_iff.mpr ⟨hnonneg, hle⟩]
    have hsigned : overflowIn .signed z = true ↔ 2 ^ 63 ≤ z := by
      rw [overflowIn_signed_iff]
      unfold minSigned maxSigned
      omega
    rw [← hsigned, arithmetic, arithmetic, overflowIn_unsigned_eq_false hnonneg hle]
    cases overflowIn .signed z <;> simp

/-- Settles O51: unsigned quotients and remainders are in the unsigned range. -/
theorem unsignedDivisionOverflowReadings : Obligations.UnsignedDivisionOverflowReadings := by
  unfold Obligations.UnsignedDivisionOverflowReadings
  intro a b
  obtain ⟨hquot, hquot'⟩ := fdiv_unsignedOf_bounds a b
  obtain ⟨hrem, hrem'⟩ := fmod_unsignedOf_bounds a b
  have ha := unsignedOf_le a
  obtain ⟨hqr, hqz⟩ := divide_result_divideByZero_congr .signed .unsigned b (Int.fdiv (unsignedOf a) (unsignedOf b))
  obtain ⟨hrr, hrz⟩ := divide_result_divideByZero_congr .signed .unsigned b (Int.fmod (unsignedOf a) (unsignedOf b))
  exact ⟨hqr, hqz, divide_signed_ne_unsigned_iff hquot (hquot'.trans ha) b,
    hrr, hrz, divide_signed_ne_unsigned_iff hrem (hrem'.trans ha) b⟩

end Sys2Proof.Machine
end

section
/-! The laws of divide and modulo (R100, R101), and the table of the flags (R13). -/

namespace Sys2Proof.Machine

/-! Floor against truncating division. -/

/-- A quotient and a remainder on the divisor's side of 0 are those of floor division. -/
theorem fdiv_fmod_eq_of_split {x y q r : Int} (hsplit : r + y * q = x)
    (hr : (0 ≤ r ∧ r < y) ∨ (y < r ∧ r ≤ 0)) : Int.fdiv x y = q ∧ Int.fmod x y = r := by
  obtain ⟨hnonneg, hlt⟩ | ⟨hlt, hnonpos⟩ := hr
  · exact (Int.fdiv_fmod_unique (by omega)).mpr ⟨hsplit, hnonneg, hlt⟩
  · exact (Int.fdiv_fmod_unique' (by omega)).mpr ⟨hsplit, hlt, hnonpos⟩

/-- A truncating remainder is 0 or has the sign of the dividend, and is smaller than the divisor in magnitude. -/
theorem tmod_bounds (x : Int) {y : Int} (hy : y ≠ 0) :
    (0 ≤ x → 0 ≤ Int.tmod x y) ∧ (x ≤ 0 → Int.tmod x y ≤ 0) ∧ (Int.tmod x y).natAbs < y.natAbs := by
  refine ⟨Int.tmod_nonneg y, fun hx => ?_, ?_⟩
  · have hneg := Int.tmod_nonneg y (a := -x) (by omega)
    rw [Int.neg_tmod] at hneg
    omega
  · rw [Int.natAbs_tmod]
    exact Nat.mod_lt _ (Int.natAbs_pos.mpr hy)

/-- R100: with an exact quotient or equal signs the two divisions agree. -/
theorem fdiv_fmod_eq_tdiv_tmod {x y : Int} (hy : y ≠ 0) (h : Int.tmod x y = 0 ∨ (x < 0 ↔ y < 0)) :
    Int.fdiv x y = Int.tdiv x y ∧ Int.fmod x y = Int.tmod x y := by
  obtain ⟨hnonneg, hnonpos, hlt⟩ := tmod_bounds x hy
  exact fdiv_fmod_eq_of_split (Int.tmod_add_mul_tdiv x y) (by omega)

/-- R100: otherwise the floor quotient is one less and the remainder one divisor more. -/
theorem fdiv_fmod_eq_tdiv_tmod_adjusted {x y : Int} (hy : y ≠ 0) (hr : Int.tmod x y ≠ 0) (h : ¬(x < 0 ↔ y < 0)) :
    Int.fdiv x y = Int.tdiv x y - 1 ∧ Int.fmod x y = Int.tmod x y + y := by
  obtain ⟨hnonneg, hnonpos, hlt⟩ := tmod_bounds x hy
  refine fdiv_fmod_eq_of_split ?_ (by omega)
  calc Int.tmod x y + y + y * (Int.tdiv x y - 1) = Int.tmod x y + y * Int.tdiv x y := by ring
    _ = x := Int.tmod_add_mul_tdiv x y

/-- The result behind the zero test, for a divisor that is not zero. -/
theorem divide_result_of_ne {d : Word} (hd : d ≠ 0#64) (m : Signedness) (z : Int) :
    (divide m d z).result = trunc64 z := by
  rw [divide, if_neg hd, arithmetic_result]

/-- Settles O49: the floor quotient and remainder of the signed readings, truncated. -/
theorem floorDivisionAgainstTruncating : Obligations.FloorDivisionAgainstTruncating := by
  unfold Obligations.FloorDivisionAgainstTruncating
  intro a b hb q r
  have hb' : signedOf b ≠ 0 := mt signedOf_eq_zero_iff.mp hb
  rw [alu_divs, alu_mods, divide_result_of_ne hb, divide_result_of_ne hb]
  refine ⟨fun h => ?_, fun ⟨hr, h⟩ => ?_⟩
  · obtain ⟨hquot, hrem⟩ := fdiv_fmod_eq_tdiv_tmod hb' h
    exact ⟨congrArg trunc64 hquot, congrArg trunc64 hrem⟩
  · obtain ⟨hquot, hrem⟩ := fdiv_fmod_eq_tdiv_tmod_adjusted hb' hr h
    exact ⟨congrArg trunc64 hquot, congrArg trunc64 hrem⟩

/-! The values of the results. -/

theorem unsignedOf_divu_result (a : Word) {b : Word} (hb : b ≠ 0#64) :
    unsignedOf (alu .divu a b).result = Int.fdiv (unsignedOf a) (unsignedOf b) := by
  obtain ⟨hnonneg, hle⟩ := fdiv_unsignedOf_bounds a b
  rw [alu_divu, divide_result_of_ne hb, unsignedOf_trunc64_eq_self_iff]
  exact ⟨hnonneg, hle.trans (unsignedOf_le a)⟩

theorem unsignedOf_modu_result (a : Word) {b : Word} (hb : b ≠ 0#64) :
    unsignedOf (alu .modu a b).result = Int.fmod (unsignedOf a) (unsignedOf b) := by
  obtain ⟨hnonneg, hle⟩ := fmod_unsignedOf_bounds a b
  rw [alu_modu, divide_result_of_ne hb, unsignedOf_trunc64_eq_self_iff]
  exact ⟨hnonneg, hle.trans (unsignedOf_le a)⟩

/-- Except for `MIN / -1` the signed quotient is in the signed range. -/
theorem signedOf_divs_result {a b : Word} (hb : b ≠ 0#64) (h : ¬(signedOf a = minSigned ∧ signedOf b = -1)) :
    signedOf (alu .divs a b).result = Int.fdiv (signedOf a) (signedOf b) := by
  rw [alu_divs, divide_result_of_ne hb]
  refine valueIn_trunc64_of_overflowIn_eq_false (m := .signed) (Bool.eq_false_iff.mpr ?_)
  rwa [ne_eq, overflowIn_signed_fdiv_signedOf_iff, fdiv_signedOf_gt_maxSigned_iff]

theorem signedOf_mods_result (a : Word) {b : Word} (hb : b ≠ 0#64) :
    signedOf (alu .mods a b).result = Int.fmod (signedOf a) (signedOf b) := by
  rw [alu_mods, divide_result_of_ne hb, signedOf_trunc64_fmod_signedOf a (mt signedOf_eq_zero_iff.mp hb)]

/-- R101 (c): a remainder is 0 or has the divisor's sign. -/
theorem mods_result_eq_zero_or_sign (a b : Word) :
    (alu .mods a b).result = 0#64 ∨ (alu .mods a b).result.getLsbD 63 = b.getLsbD 63 := by
  by_cases hb : b = 0#64
  · left
    rw [hb, alu_zero_divisor (by decide), zeroDivisor_result]
  · have hvalue := signedOf_mods_result a hb
    have hrem := fmod_bounds (signedOf a) (mt signedOf_eq_zero_iff.mp hb)
    rw [← signedOf_eq_zero_iff, getLsbD_63_eq_decide, getLsbD_63_eq_decide, hvalue, decide_eq_decide]
    omega

/-- R101 (f): with both sign bits 0 the readings agree, and the quotient and remainder are in both ranges. -/
theorem signed_division_eq_unsigned {a b : Word} (ha : a.getLsbD 63 = false) (hb : b.getLsbD 63 = false) :
    alu .divs a b = alu .divu a b ∧ alu .mods a b = alu .modu a b := by
  rw [getLsbD_63_eq_decide, decide_eq_false_iff_not, not_lt] at ha hb
  obtain ⟨hquot, hquot'⟩ := fdiv_unsignedOf_bounds a b
  obtain ⟨hrem, hrem'⟩ := fmod_unsignedOf_bounds a b
  have hmax := signedOf_le a
  rw [alu_divs, alu_divu, alu_mods, alu_modu]
  rw [unsignedOf_eq_signedOf ha, unsignedOf_eq_signedOf hb] at *
  exact ⟨divide_signed_eq_unsigned hquot (hquot'.trans hmax) b, divide_signed_eq_unsigned hrem (hrem'.trans hmax) b⟩

/-- Settles O50: the division identities at the values of the results; the flags and the zero divisor
by the one response that sets `divideByZero`. -/
theorem divideModuloLaws : Obligations.DivideModuloLaws := by
  unfold Obligations.DivideModuloLaws
  refine ⟨fun a b hb => ?unsigned, fun a b hb hrange => ?signed, fun a b ha hb => ?minByMinusOne,
    mods_result_eq_zero_or_sign, fun i _ a b => alu_flags_consistent i a b, fun i hi a => alu_zero_divisor hi a,
    fun _ _ => signed_division_eq_unsigned⟩
  case unsigned =>
    have hpos : 0 < unsignedOf b := lt_of_le_of_ne (unsignedOf_nonneg b) (Ne.symm (mt unsignedOf_eq_zero_iff.mp hb))
    rw [unsignedOf_divu_result a hb, unsignedOf_modu_result a hb]
    exact ⟨(Int.fdiv_mul_add_fmod _ _).symm, Int.fmod_lt_of_pos _ hpos⟩
  case signed =>
    rw [signedOf_divs_result hb hrange, signedOf_mods_result a hb]
    exact (Int.fdiv_mul_add_fmod _ _).symm
  case minByMinusOne =>
    have ha' : a = trunc64 minSigned := by rw [← ha, trunc64_signedOf]
    have hb' : b = trunc64 (-1) := by rw [← hb, trunc64_signedOf]
    rw [ha', hb']
    decide

/-! The table of the flags. -/

/-- Behind the zero test, an exact result that never overflows sets no overflow. -/
theorem divide_overflow_eq_false {m : Signedness} {d : Word} {z : Int}
    (h : valueIn m d ≠ 0 → (overflowIn m z = true ↔ False)) : (divide m d z).overflow = true ↔ False := by
  by_cases hd : valueIn m d = 0
  · rw [divide_of_valueIn_eq_zero hd, zeroDivisor_overflow, Bool.false_eq_true]
  · rw [divide_of_valueIn_ne_zero hd, arithmetic_overflow, h hd]

/-- R13, the column `overflow`. -/
theorem alu_overflow_iff (i : Instr) (a b : Word) : (alu i a b).overflow = true ↔ OverflowSet i a b := by
  cases i
  case and | or | nor | xor | nand | xnor | not | lsl | lsr | rol | ror | asr | u2f | s2f | u2d | s2d =>
    exact iff_of_false Bool.false_ne_true id
  case neg => exact overflowIn_signed_neg_signedOf_iff a
  case addu => exact addu_overflow_iff a b
  case adds | subs | muls => exact overflowIn_signed_iff
  case subu => exact subu_overflow_iff a b
  case mulu => exact overflowIn_unsigned_mul_unsignedOf_iff a b
  case divu => exact divide_overflow_eq_false fun _ => overflowIn_unsigned_fdiv_unsignedOf a b
  case divs => exact divs_overflow_iff a b
  case modu => exact divide_overflow_eq_false fun _ => overflowIn_unsigned_fmod_unsignedOf a b
  case mods => exact divide_overflow_eq_false fun hne => overflowIn_signed_fmod_signedOf a hne

/-- Settles O17: the two columns of the table. -/
theorem flagsAsTabulated : Obligations.FlagsAsTabulated :=
  fun i s => ⟨_, exec_eq i s, alu_overflow_iff i s.a s.b, alu_divideByZero_iff i s.a s.b⟩

end Sys2Proof.Machine
end

section
/-! The shifts and rotates on Words (R72 to R77): for every amount LSL is one of the two logical shifts of a Word, ASR
the arithmetic one, and a rotate depends on the amount modulo 64. -/

namespace Sys2Proof.Machine

/-! The five results. -/

theorem alu_lsl_result (a b : Word) : (alu .lsl a b).result = shiftLeft a (signedOf b) := rfl
theorem alu_lsr_result (a b : Word) : (alu .lsr a b).result = shiftLeft a (-signedOf b) := rfl
theorem alu_ror_result (a b : Word) : (alu .ror a b).result = rotateRight a (signedOf b) := rfl
theorem alu_rol_result (a b : Word) : (alu .rol a b).result = rotateRight a (-signedOf b) := rfl
theorem alu_asr_result (a b : Word) : (alu .asr a b).result = shiftRightArithmetic a (signedOf b) := rfl

/-! Every amount, without the guards. -/

theorem shiftLeft_of_nonneg (w : Word) {n : Int} (hn : 0 ≤ n) : shiftLeft w n = w <<< n.toNat := by
  refine BitVec.eq_of_getLsbD_eq fun k hk => ?_
  rw [getLsbD_shiftLeft_int w n hk, getLsbD_shiftLeft_eq_bitOr0 w _ hk, Int.toNat_of_nonneg hn]

theorem shiftLeft_of_nonpos (w : Word) {n : Int} (hn : n ≤ 0) : shiftLeft w n = w >>> (-n).toNat := by
  refine BitVec.eq_of_getLsbD_eq fun k hk => ?_
  have hindex : (((-n).toNat + k : Nat) : Int) = k - n := by omega
  rw [getLsbD_shiftLeft_int w n hk, BitVec.getLsbD_ushiftRight, ← bitOr0_natCast, hindex]

/-- R76: the sign fill of an amount of 64 or more is the arithmetic shift too. -/
theorem shiftRightArithmetic_of_nonneg (w : Word) {n : Int} (hn : 0 ≤ n) :
    shiftRightArithmetic w n = w.sshiftRight n.toNat := by
  unfold shiftRightArithmetic
  split
  · next hzero => rw [hzero, Int.toNat_zero, BitVec.sshiftRight_zero]
  split
  · next hge =>
    refine BitVec.eq_of_getLsbD_eq fun k hk => ?_
    rw [getLsbD_signFill w hk, getLsbD_sshiftRight_toNat w (by omega) hk, if_neg (by omega)]
  · rw [if_neg (by omega), if_pos (by omega)]

/-- R76: a negative amount shifts left, as LSR does. -/
theorem shiftRightArithmetic_of_neg (w : Word) {n : Int} (hn : n < 0) :
    shiftRightArithmetic w n = shiftLeft w (-n) := by
  rw [shiftLeft_of_nonneg w (by omega)]
  unfold shiftRightArithmetic
  rw [if_neg (by omega), if_neg (by omega)]
  split
  · exact (BitVec.shiftLeft_eq_zero (by omega)).symm
  · rw [if_neg (by omega)]

/-- R74: a rotate reads its amount modulo 64. -/
theorem rotateRight_congr (w : Word) {n n' : Int} (h : n % 64 = n' % 64) : rotateRight w n = rotateRight w n' := by
  rw [rotateRight, rotateRight, h]

theorem rotateRight_neg_congr (w : Word) {n n' : Int} (h : n % 64 = n' % 64) :
    rotateRight w (-n) = rotateRight w (-n') :=
  rotateRight_congr w (by omega)

theorem rotateRight_of_emod_eq_zero (w : Word) {n : Int} (h : n % 64 = 0) : rotateRight w n = w := by
  refine BitVec.eq_of_getLsbD_eq fun k hk => ?_
  rw [getLsbD_rotateRight_int w n hk, h, Int.toNat_zero, Nat.add_zero, Nat.mod_eq_of_lt hk]

/-! The values (R72, R73, R76). -/

theorem shiftLeft_eq_trunc64_mul (w : Word) (k : Nat) : w <<< k = trunc64 (unsignedOf w * 2 ^ k) := by
  apply unsignedOf_injective
  rw [unsignedOf_trunc64_eq, unsignedOf, unsignedOf, BitVec.toNat_shiftLeft, Nat.shiftLeft_eq]
  push_cast
  rfl

theorem unsignedOf_ushiftRight (w : Word) (k : Nat) : unsignedOf (w >>> k) = Int.fdiv (unsignedOf w) (2 ^ k) := by
  rw [Int.fdiv_eq_ediv_of_nonneg _ (by positivity), unsignedOf, unsignedOf, BitVec.toNat_ushiftRight,
    Nat.shiftRight_eq_div_pow]
  push_cast
  rfl

theorem signedOf_sshiftRight (w : Word) (k : Nat) : signedOf (w.sshiftRight k) = Int.fdiv (signedOf w) (2 ^ k) := by
  rw [Int.fdiv_eq_ediv_of_nonneg _ (by positivity), signedOf, signedOf, BitVec.toInt_sshiftRight,
    Int.shiftRight_eq_div_pow]
  push_cast
  rfl

/-- R74: the low six bits of the amount are its residue modulo 64, negative amounts included. -/
theorem signedOf_emod_64 (w : Word) : (signedOf w % 64).toNat = (w.extractLsb' 0 6).toNat := by
  rw [signedOf_eq, BitVec.extractLsb'_toNat, Nat.shiftRight_zero]
  unfold unsignedOf maxSigned maxUnsigned
  split <;> omega

theorem signedOf_emod_64_congr {b b' : Word} (h : b'.extractLsb' 0 6 = b.extractLsb' 0 6) :
    signedOf b' % 64 = signedOf b % 64 := by
  have hb := signedOf_emod_64 b
  have hb' := signedOf_emod_64 b'
  rw [h] at hb'
  omega

/-- Settles O32: the shifts of a Word as multiplication and floor division by a power of 2; the rotates by the residue
of the amount. -/
theorem shiftsAreArithmeticOnTheValue : Obligations.ShiftsAreArithmeticOnTheValue := by
  unfold Obligations.ShiftsAreArithmeticOnTheValue
  intro a b
  rw [alu_lsl_result, alu_lsr_result, alu_asr_result]
  refine ⟨fun hn _ => ⟨?_, ?_⟩, fun _ hn => ⟨?_, ?_⟩, fun hn => ?_, signedOf_emod_64 b, fun b' h => ⟨?_, ?_⟩⟩
  · rw [shiftLeft_of_nonneg a hn, shiftLeft_eq_trunc64_mul]
  · rw [shiftLeft_of_nonpos a (by omega), unsignedOf_ushiftRight, neg_neg]
  · rw [shiftLeft_of_nonpos a (by omega), unsignedOf_ushiftRight]
  · rw [shiftLeft_of_nonneg a (by omega), shiftLeft_eq_trunc64_mul]
  · rw [shiftRightArithmetic_of_nonneg a hn, signedOf_sshiftRight]
  · exact congrArg clearFlags (rotateRight_congr a (signedOf_emod_64_congr h))
  · exact congrArg clearFlags (rotateRight_neg_congr a (signedOf_emod_64_congr h))

/-! The laws of R77. -/

/-- R77 (b): a rotate left and a rotate right by one amount cancel. -/
theorem rotateRight_rotateRight_neg (w : Word) (n : Int) : rotateRight (rotateRight w (-n)) n = w := by
  refine BitVec.eq_of_getLsbD_eq fun k hk => ?_
  have hindex : ((k + (n % 64).toNat) % 64 + (-n % 64).toNat) % 64 = k := by omega
  rw [getLsbD_rotateRight_int _ _ hk, getLsbD_rotateRight_int _ _ (Nat.mod_lt _ (by norm_num)), hindex]

/-- R77 (c): the top `n` bits of an arithmetic shift right by `n` are the sign bit. -/
theorem getLsbD_shiftRightArithmetic_top (w : Word) {n : Int} (hn : 0 < n) {k : Nat} (hk : k < 64)
    (htop : 64 - n ≤ k) : (shiftRightArithmetic w n).getLsbD k = w.getLsbD 63 := by
  rw [shiftRightArithmetic_of_nonneg w hn.le, getLsbD_sshiftRight_toNat w hn hk, if_neg (by omega)]

/-- R77 (e): a rotate left by `n` brings the low bits up by `n` and the top `n` bits down by `64 - n`. -/
theorem rotateRight_neg_eq_or (w : Word) {n : Int} (h1 : 1 ≤ n) (h63 : n ≤ 63) :
    rotateRight w (-n) = shiftLeft w n ||| shiftLeft w (-(64 - n)) := by
  refine BitVec.eq_of_getLsbD_eq fun k hk => ?_
  rw [BitVec.getLsbD_or, getLsbD_rotateRight_int _ _ hk, getLsbD_shiftLeft_int _ _ hk, getLsbD_shiftLeft_int _ _ hk,
    ← bitOr0_natCast]
  by_cases hlow : (k : Int) < n
  · have hindex : (((k + (-n % 64).toNat) % 64 : Nat) : Int) = k - -(64 - n) := by omega
    rw [hindex, bitOr0_of_outside w (j := k - n) (by omega), Bool.false_or]
  · have hindex : (((k + (-n % 64).toNat) % 64 : Nat) : Int) = k - n := by omega
    rw [hindex, bitOr0_of_outside w (j := k - -(64 - n)) (by omega), Bool.or_false]

/-- R77 (f): with sign bit 0 the arithmetic and the logical shift right agree. -/
theorem shiftRightArithmetic_eq_shiftLeft_neg (w : Word) (hsign : w.getLsbD 63 = false) {n : Int} (hn : 0 ≤ n) :
    shiftRightArithmetic w n = shiftLeft w (-n) := by
  have hmsb : w.msb = false := w.msb_eq_getLsbD_last.trans hsign
  rw [shiftRightArithmetic_of_nonneg w hn, shiftLeft_of_nonpos w (by omega), neg_neg,
    BitVec.sshiftRight_eq_of_msb_false hmsb]

/-- R77 (h): a left shift multiplies by the Word it makes of 1. -/
theorem shiftLeft_eq_mul (w : Word) {n : Int} (hn : 0 ≤ n) : shiftLeft w n = w * shiftLeft 1#64 n := by
  rw [shiftLeft_of_nonneg w hn, shiftLeft_of_nonneg _ hn, ← BitVec.twoPow_eq, BitVec.mul_twoPow_eq_shiftLeft]

/-- Settles O33, each law by the one about the Word and the integer amount. -/
theorem shiftRotateLaws : Obligations.ShiftRotateLaws := by
  unfold Obligations.ShiftRotateLaws
  simp only [alu_lsl_result, alu_lsr_result, alu_ror_result, alu_rol_result, alu_asr_result]
  refine ⟨fun x n n' h => ?duality, fun x n h => ?dualityAtMin, fun x n => rotateRight_rotateRight_neg x _,
    fun x n hpos _ k htop hk => getLsbD_shiftRightArithmetic_top x hpos hk htop, fun x n => ⟨?residue, ?leftAsRight⟩,
    fun x n h1 h63 => ?leftAsOr, fun x n hsign hn => shiftRightArithmetic_eq_shiftLeft_neg x hsign hn,
    fun x n hn => shiftRightArithmetic_of_neg x hn, fun x n n' hn h => ?asLeftShift, fun x n hn _ => ?asProduct⟩
  case duality => exact ⟨by rw [h], by rw [h]⟩
  case dualityAtMin =>
    rw [h]
    exact ⟨rfl, rotateRight_of_emod_eq_zero x (by decide)⟩
  case residue =>
    refine rotateRight_congr x ?_
    rw [signedOf_trunc64_eq_self_iff.mpr (by unfold minSigned maxSigned; omega)]
    omega
  case leftAsRight =>
    refine rotateRight_congr x ?_
    rw [signedOf_trunc64_eq_self_iff.mpr (by unfold minSigned maxSigned; omega)]
    omega
  case leftAsOr =>
    rw [signedOf_trunc64_eq_self_iff.mpr (by unfold minSigned maxSigned; omega)]
    exact rotateRight_neg_eq_or x h1 h63
  case asLeftShift => rw [h, shiftRightArithmetic_of_neg x hn]
  case asProduct => rw [alu_mulu_result, shiftLeft_eq_mul x hn]

end Sys2Proof.Machine
end

section
/-! The patterns of the conversions (R107, R109 to R115): the fields and the size of a converted pattern, in any format
whose exponent field has room for the integers of R110's range. -/

namespace Sys2Proof.Machine

/-! The reinterpreter. -/

theorem getLsbD_reinterpret32 (x : BitVec 32) {k : Nat} (hk : k < 32) :
    (reinterpret32 x).getLsbD k = x.getLsbD k := by
  rw [reinterpret32, BitVec.getLsbD_setWidth, decide_eq_true (by omega), Bool.true_and]

theorem getLsbD_reinterpret32_of_ge (x : BitVec 32) {k : Nat} (hk : 32 ≤ k) : (reinterpret32 x).getLsbD k = false := by
  rw [reinterpret32, BitVec.getLsbD_setWidth, BitVec.getLsbD_of_ge x k hk, Bool.and_false]

theorem reinterpret32_toNat (x : BitVec 32) : (reinterpret32 x).toNat = x.toNat :=
  BitVec.toNat_setWidth_of_le (by norm_num)

/-- Settles O56: widening keeps the low 32 bits and adds zeros. -/
theorem reinterpreterChangesNoBit : Obligations.ReinterpreterChangesNoBit :=
  ⟨fun x => ⟨fun _ hk => getLsbD_reinterpret32 x hk, fun _ hk => getLsbD_reinterpret32_of_ge x hk⟩, fun _ _ => rfl⟩

/-! The integers and the formats. -/

theorem convertibleRange_unsignedOf (w : Word) : ConvertibleRange (unsignedOf w) := by
  have hnonneg := unsignedOf_nonneg w
  exact ⟨by unfold minSigned; omega, unsignedOf_le w⟩

theorem convertibleRange_signedOf (w : Word) : ConvertibleRange (signedOf w) := by
  have hle := signedOf_le w
  exact ⟨minSigned_le_signedOf w, by unfold maxSigned maxUnsigned at *; omega⟩

theorem natAbs_lt_of_convertibleRange {v : Int} (h : ConvertibleRange v) : v.natAbs < 2 ^ 64 := by
  obtain ⟨hmin, hmax⟩ := h
  unfold minSigned maxUnsigned at *
  omega

/-- A format in which the integers of R110's range, of at most 64 bits, are normal numbers: the exponents 0 to 64 stay
clear of the two reserved values of the exponent field. -/
structure FloatFormat.HoldsWords (f : FloatFormat) : Prop where
  two_le_precision : 2 ≤ f.precision
  bias_pos : 0 < f.bias
  bias_add_lt : 64 + f.bias < 2 ^ f.expWidth - 1

theorem binary32_holdsWords : binary32.HoldsWords := ⟨by decide, by decide, by decide⟩

theorem binary64_holdsWords : binary64.HoldsWords := ⟨by decide, by decide, by decide⟩

theorem holdsWords_of_mem {f : FloatFormat} (h : f ∈ [binary32, binary64]) : f.HoldsWords := by
  obtain rfl | rfl : f = binary32 ∨ f = binary64 := by simpa using h
  · exact binary32_holdsWords
  · exact binary64_holdsWords

/-! Packing. -/

/-- The sign bit the converter gives an integer (R110). -/
def signBitOf (v : Int) : Nat :=
  if v < 0 then 1 else 0

theorem signBitOf_lt_two (v : Int) : signBitOf v < 2 := by
  unfold signBitOf
  split <;> norm_num

theorem convert_zero (f : FloatFormat) : convert f 0 = 0 := rfl

/-- R110, the end of `CVT`: the sign, the biased exponent and the significand without its leading 1. -/
theorem convert_of_ne_zero (f : FloatFormat) {v : Int} (hv : v ≠ 0) :
    convert f v = signBitOf v * 2 ^ (f.expWidth + f.precision - 1)
      + ((roundMagnitude f.precision v.natAbs).exponent + f.bias) * 2 ^ (f.precision - 1)
      + ((roundMagnitude f.precision v.natAbs).significand - 2 ^ (f.precision - 1)) :=
  if_neg hv

/-- A magnitude of 64 bits rounds to less than `2^64`, or by a carry to `2^64`. -/
theorem roundMagnitude_exponent_le {p m : Nat} (hp : 2 ≤ p) (hm : 0 < m) (hlt : m < 2 ^ 64) :
    (roundMagnitude p m).exponent < 64
    ∨ ((roundMagnitude p m).exponent = 64 ∧ (roundMagnitude p m).significand = 2 ^ (p - 1)) := by
  have hlog : m.log2 < 64 := (Nat.log2_lt hm.ne').mpr hlt
  obtain ⟨-, -, hexp | ⟨hexp, hsig⟩⟩ := roundMagnitude_bounds hp hm
  · omega
  · by_cases hcarry : m.log2 + 1 < 64
    · omega
    · exact .inr ⟨by omega, hsig⟩

section ConvertedPattern
variable {f : FloatFormat} {v : Int}

/-- R109, R110: the fields of a converted pattern. -/
theorem convert_fields (hf : f.HoldsWords) (hv : v ≠ 0) (hrange : ConvertibleRange v) :
    signField f (convert f v) = signBitOf v
    ∧ exponentField f (convert f v) = (roundMagnitude f.precision v.natAbs).exponent + f.bias
    ∧ fractionField f (convert f v)
        = (roundMagnitude f.precision v.natAbs).significand - 2 ^ (f.precision - 1) := by
  have hprec := hf.two_le_precision
  have hm := Int.natAbs_pos.mpr hv
  have hexp := roundMagnitude_exponent_le hprec hm (natAbs_lt_of_convertibleRange hrange)
  have hbias := hf.bias_add_lt
  obtain ⟨hsig, hsig', -⟩ := roundMagnitude_bounds hprec hm
  have hdouble := Nat.two_pow_pred_mul_two (w := f.precision) (by omega)
  rw [convert_of_ne_zero f hv]
  exact pattern_fields f (by omega) (signBitOf_lt_two v) (by omega) (by omega)

/-- Below the sign bit a converted pattern is at most that of `2^64`. -/
theorem convert_eq_sign_add (hf : f.HoldsWords) (hrange : ConvertibleRange v) :
    ∃ low, low ≤ (64 + f.bias) * 2 ^ (f.precision - 1)
      ∧ convert f v = signBitOf v * 2 ^ (f.expWidth + f.precision - 1) + low := by
  by_cases hv : v = 0
  · refine ⟨0, Nat.zero_le _, ?_⟩
    rw [hv, convert_zero]
    simp [signBitOf]
  · have hprec := hf.two_le_precision
    have hm := Int.natAbs_pos.mpr hv
    obtain ⟨hsig, hsig', -⟩ := roundMagnitude_bounds hprec hm
    refine ⟨_, ?_, by rw [convert_of_ne_zero f hv, Nat.add_assoc]⟩
    obtain hexp | ⟨hexp, hleast⟩ := roundMagnitude_exponent_le hprec hm (natAbs_lt_of_convertibleRange hrange)
    · have hdouble := Nat.two_pow_pred_mul_two (w := f.precision) (by omega)
      calc _ ≤ (63 + f.bias) * 2 ^ (f.precision - 1) + 2 ^ (f.precision - 1) :=
            Nat.add_le_add (Nat.mul_le_mul_right _ (by omega)) (by omega)
        _ = (64 + f.bias) * 2 ^ (f.precision - 1) := by ring
    · rw [hexp, hleast, Nat.sub_self, Nat.add_zero]

/-- The bits below the sign bit hold the pattern of `2^64`. -/
theorem pattern_lt_signWeight (hf : f.HoldsWords) :
    (64 + f.bias) * 2 ^ (f.precision - 1) < 2 ^ (f.expWidth + f.precision - 1) := by
  have hprec := hf.two_le_precision
  have hbias := hf.bias_add_lt
  rw [show f.expWidth + f.precision - 1 = f.expWidth + (f.precision - 1) by omega, pow_add]
  exact Nat.mul_lt_mul_of_pos_right (by omega) (by positivity)

theorem convert_lt (hf : f.HoldsWords) (hrange : ConvertibleRange v) :
    convert f v < 2 ^ (f.expWidth + f.precision) := by
  have hprec := hf.two_le_precision
  have hlt := pattern_lt_signWeight hf
  have hsign := signBitOf_lt_two v
  obtain ⟨low, hlow, hconvert⟩ := convert_eq_sign_add hf hrange
  have hdouble := Nat.two_pow_pred_mul_two (w := f.expWidth + f.precision) (by omega)
  have hsignLe := Nat.mul_le_mul_right (2 ^ (f.expWidth + f.precision - 1)) (Nat.le_of_lt_succ hsign)
  omega

/-- R112, R114: the most significant bit of a converted pattern is the sign of the integer. -/
theorem testBit_convert_sign (hf : f.HoldsWords) (hrange : ConvertibleRange v) :
    (convert f v).testBit (f.expWidth + f.precision - 1) = decide (v < 0) := by
  obtain ⟨low, hlow, hconvert⟩ := convert_eq_sign_add hf hrange
  have hlt : low < 2 ^ (f.expWidth + f.precision - 1) := hlow.trans_lt (pattern_lt_signWeight hf)
  rw [hconvert, Nat.testBit_eq_decide_div_mod_eq, Nat.add_comm, Nat.add_mul_div_right _ _ (by positivity),
    Nat.div_eq_of_lt hlt, Nat.zero_add, Nat.mod_eq_of_lt (signBitOf_lt_two v), signBitOf]
  split <;> simp [*]

/-- R115: a converted integer other than 0 is a normal number. -/
theorem kindOf_convert_of_ne_zero (hf : f.HoldsWords) (hv : v ≠ 0) (hrange : ConvertibleRange v) :
    kindOf f (convert f v) = .normal := by
  obtain ⟨-, hexp, -⟩ := convert_fields hf hv hrange
  have hle := roundMagnitude_exponent_le hf.two_le_precision (Int.natAbs_pos.mpr hv)
    (natAbs_lt_of_convertibleRange hrange)
  have hbias := hf.bias_add_lt
  have hpos := hf.bias_pos
  rw [kindOf, hexp, if_neg (by omega), if_neg (by omega)]

theorem kindOf_zero (f : FloatFormat) : kindOf f 0 = .positiveZero := by
  simp [kindOf, exponentField, fractionField, signField]

theorem exponentField_convert_le (hf : f.HoldsWords) (hrange : ConvertibleRange v) :
    exponentField f (convert f v) ≤ 64 + f.bias := by
  by_cases hv : v = 0
  · rw [hv, convert_zero]
    simp [exponentField]
  · obtain ⟨-, hexp, -⟩ := convert_fields hf hv hrange
    have hle := roundMagnitude_exponent_le hf.two_le_precision (Int.natAbs_pos.mpr hv)
      (natAbs_lt_of_convertibleRange hrange)
    omega

end ConvertedPattern

/-- Settles O58: the exponent field of a converted integer lies strictly between its two reserved values. -/
theorem conversionGivesNormalOrPositiveZero : Obligations.ConversionGivesNormalOrPositiveZero := by
  unfold Obligations.ConversionGivesNormalOrPositiveZero
  refine fun v hrange => ⟨fun f hf => ?kind, fun hv => hv ▸ ⟨rfl, rfl⟩,
    exponentField_convert_le binary32_holdsWords hrange, exponentField_convert_le binary64_holdsWords hrange⟩
  case kind =>
    split
    · next hv => rw [hv, convert_zero, kindOf_zero]
    · next hv => exact kindOf_convert_of_ne_zero (holdsWords_of_mem hf) hv hrange

/-! The four conversions. -/

theorem toBinary32_toNat {v : Int} (hrange : ConvertibleRange v) :
    (toBinary32 Config.floatRounding v).toNat = convert binary32 v :=
  Nat.mod_eq_of_lt (convert_lt binary32_holdsWords hrange)

theorem toBinary64_toNat {v : Int} (hrange : ConvertibleRange v) : (toBinary64 v).toNat = convert binary64 v :=
  Nat.mod_eq_of_lt (convert_lt binary64_holdsWords hrange)

theorem alu_u2f_result_toNat (a b : Word) : (alu .u2f a b).result.toNat = convert binary32 (unsignedOf a) :=
  (reinterpret32_toNat _).trans (toBinary32_toNat (convertibleRange_unsignedOf a))

theorem alu_s2f_result_toNat (a b : Word) : (alu .s2f a b).result.toNat = convert binary32 (signedOf a) :=
  (reinterpret32_toNat _).trans (toBinary32_toNat (convertibleRange_signedOf a))

theorem alu_u2d_result_toNat (a b : Word) : (alu .u2d a b).result.toNat = convert binary64 (unsignedOf a) :=
  toBinary64_toNat (convertibleRange_unsignedOf a)

theorem alu_s2d_result_toNat (a b : Word) : (alu .s2d a b).result.toNat = convert binary64 (signedOf a) :=
  toBinary64_toNat (convertibleRange_signedOf a)

/-- R105. -/
theorem conversion_flags {i : Instr} (hi : i ∈ [Instr.u2f, .s2f, .u2d, .s2d]) (a b : Word) :
    (alu i a b).overflow = false ∧ (alu i a b).divideByZero = false := by
  simp only [List.mem_cons, List.not_mem_nil, or_false] at hi
  obtain rfl | rfl | rfl | rfl := hi <;> exact ⟨rfl, rfl⟩

/-- R106: a conversion whose result is the pattern of the operand's value converts to that format. -/
theorem convertsTo_of_result_toNat {i : Instr} {f : FloatFormat} {mode : Signedness}
    (hi : i ∈ [Instr.u2f, .s2f, .u2d, .s2d])
    (hresult : ∀ a b, (alu i a b).result.toNat = convert f (valueIn mode a)) : ConvertsTo i f mode := by
  intro s
  obtain ⟨hover, hzero⟩ := conversion_flags hi s.a s.b
  exact ⟨_, exec_eq i s, hresult s.a s.b, hover, hzero, State.answer_request s _⟩

/-- A nonnegative integer has sign bit 0, so its pattern is at most that of `2^64`. -/
theorem convert_le_of_nonneg {f : FloatFormat} (hf : f.HoldsWords) {v : Int} (hv : 0 ≤ v)
    (hrange : ConvertibleRange v) : convert f v ≤ (64 + f.bias) * 2 ^ (f.precision - 1) := by
  obtain ⟨low, hlow, hconvert⟩ := convert_eq_sign_add hf hrange
  rw [hconvert, signBitOf, if_neg hv.not_gt, Nat.zero_mul, Nat.zero_add]
  exact hlow

/-- Settles O52: 0x5F800000 is the pattern of `2^64`. -/
theorem unsignedToBinary32 : Obligations.UnsignedToBinary32 := by
  refine ⟨decode_encode .u2f, convertsTo_of_result_toNat (by decide) alu_u2f_result_toNat, fun a b => ?_⟩
  rw [alu_u2f_result_toNat]
  exact convert_le_of_nonneg binary32_holdsWords (unsignedOf_nonneg a) (convertibleRange_unsignedOf a)

theorem getLsbD_31_alu_s2f (a b : Word) : (alu .s2f a b).result.getLsbD 31 = decide (signedOf a < 0) := by
  rw [← BitVec.testBit_toNat, alu_s2f_result_toNat]
  exact testBit_convert_sign binary32_holdsWords (convertibleRange_signedOf a)

theorem getLsbD_63_alu_u2d (a b : Word) : (alu .u2d a b).result.getLsbD 63 = decide (unsignedOf a < 0) := by
  rw [← BitVec.testBit_toNat, alu_u2d_result_toNat]
  exact testBit_convert_sign binary64_holdsWords (convertibleRange_unsignedOf a)

theorem getLsbD_63_alu_s2d (a b : Word) : (alu .s2d a b).result.getLsbD 63 = decide (signedOf a < 0) := by
  rw [← BitVec.testBit_toNat, alu_s2d_result_toNat]
  exact testBit_convert_sign binary64_holdsWords (convertibleRange_signedOf a)

/-- Settles O53: the pattern fits the low half, and its sign bit is bit 31. -/
theorem signedToBinary32 : Obligations.SignedToBinary32 := by
  refine ⟨decode_encode .s2f, convertsTo_of_result_toNat (by decide) alu_s2f_result_toNat, fun a b => ?_, fun a b => ?_⟩
  · rw [alu_s2f_result_toNat]
    exact convert_lt binary32_holdsWords (convertibleRange_signedOf a)
  · rw [getLsbD_31_alu_s2f, decide_eq_true_iff]

/-- Settles O54: every pattern of binary64 is a Word, so its number is the converter's. -/
theorem unsignedToBinary64 : Obligations.UnsignedToBinary64 :=
  ⟨decode_encode .u2d, convertsTo_of_result_toNat (by decide) alu_u2d_result_toNat⟩

/-- Settles O55: the sign bit of the pattern is bit 63. -/
theorem signedToBinary64 : Obligations.SignedToBinary64 := by
  refine ⟨decode_encode .s2d, convertsTo_of_result_toNat (by decide) alu_s2d_result_toNat, fun a b => ?_⟩
  rw [getLsbD_63_alu_s2d, decide_eq_true_iff]

end Sys2Proof.Machine
end

section
/-! The value of a converted pattern (R108, R109): rounding a magnitude gives the nearest number of `p` significant
bits. The two neighbours of the magnitude with `p` bits have no such number between them. -/

namespace Sys2Proof.Machine

/-! Numbers of `p` significant bits. -/

/-- A number whose magnitude is `s * 2^t` with `s < 2^p`, for any exponent `t`. -/
def HasPrecision (p : Nat) (z : ℚ) : Prop :=
  ∃ (s : Nat) (t : Int), s < 2 ^ p ∧ |z| = s * 2 ^ t

theorem HasPrecision.neg {p : Nat} {z : ℚ} (h : HasPrecision p z) : HasPrecision p (-z) := by
  obtain ⟨s, t, hs, hz⟩ := h
  exact ⟨s, t, hs, by rw [abs_neg, hz]⟩

theorem hasPrecision_zero (p : Nat) : HasPrecision p 0 :=
  ⟨0, 0, by positivity, by norm_num⟩

/-- R116 (e): an integer whose magnitude is `q * 2^k` with `q` of `p` bits. -/
theorem hasPrecision_intCast {p q k : Nat} {v : Int} (hv : v.natAbs = q * 2 ^ k) (hq : q < 2 ^ p) :
    HasPrecision p v := by
  refine ⟨q, k, hq, ?_⟩
  rw [← Int.cast_abs, Int.abs_eq_natAbs, hv]
  push_cast
  rfl

/-- A number of `p` significant bits that is at least `2^(p-1) * 2^sh` is a multiple of `2^sh`, so it does not lie
between two consecutive multiples. -/
theorem HasPrecision.le_or_ge {p q sh : Nat} {z : ℚ} (h : HasPrecision p z) (hp : 1 ≤ p) (hq : 2 ^ (p - 1) ≤ q) :
    z ≤ q * 2 ^ sh ∨ (q : ℚ) * 2 ^ sh + 2 ^ sh ≤ z := by
  by_contra! hbetween
  obtain ⟨hlow, hhigh⟩ := hbetween
  obtain ⟨s, t, hs, hz⟩ := h
  have hpow : (0 : ℚ) < 2 ^ sh := by positivity
  have hzpos : 0 < z := lt_of_le_of_lt (by positivity) hlow
  rw [abs_of_pos hzpos] at hz
  have ht : (sh : Int) ≤ t := by
    by_contra! hlt
    have hs' : (s : ℚ) ≤ 2 ^ p := by exact_mod_cast hs.le
    have hq' : (2 : ℚ) ^ (p - 1) ≤ q := by exact_mod_cast hq
    have hsmall : z ≤ q * 2 ^ sh := calc
      z = s * 2 ^ t := hz
      _ ≤ 2 ^ p * 2 ^ ((sh : Int) - 1) := by
        have hexp : (2 : ℚ) ^ t ≤ 2 ^ ((sh : Int) - 1) := zpow_le_zpow_right₀ one_le_two (by omega)
        gcongr
      _ = 2 ^ (p - 1) * 2 ^ sh := by
        rw [show p = (p - 1) + 1 by omega, pow_succ, Nat.add_sub_cancel, zpow_sub_one₀ two_ne_zero, zpow_natCast]
        ring
      _ ≤ q * 2 ^ sh := by gcongr
    exact hlow.not_ge hsmall
  obtain ⟨n, hn⟩ := Int.le.dest ht
  have hmult : z = (s * 2 ^ n : Nat) * 2 ^ sh := by
    rw [hz, ← hn, zpow_add₀ two_ne_zero, zpow_natCast, zpow_natCast]
    push_cast
    ring
  rw [hmult] at hlow hhigh
  have hlow' : q < s * 2 ^ n := by exact_mod_cast lt_of_mul_lt_mul_right hlow hpow.le
  have hhigh' : s * 2 ^ n < q + 1 := by
    have hfactor : ((s * 2 ^ n : Nat) : ℚ) * 2 ^ sh < ((q + 1 : Nat) : ℚ) * 2 ^ sh := by
      push_cast at hhigh ⊢
      linarith
    exact_mod_cast lt_of_mul_lt_mul_right hfactor hpow.le
  omega

/-! The rounded magnitude. -/

/-- The value of a rounded magnitude: its significand has the weight `2^(p-1)` at its leading 1. -/
def roundedMagnitude (p m : Nat) : ℚ :=
  (roundMagnitude p m).significand * 2 ^ (roundMagnitude p m).exponent / 2 ^ (p - 1)

theorem roundedMagnitude_eq {p m x : Nat}
    (h : (roundMagnitude p m).significand * 2 ^ (roundMagnitude p m).exponent = x * 2 ^ (p - 1)) :
    roundedMagnitude p m = x := by
  rw [roundedMagnitude, div_eq_iff (by positivity)]
  exact_mod_cast h

/-- `roundMagnitude_neighbour` for the value: it is exact, or the nearer of the neighbours `q * 2^sh` and
`(q + 1) * 2^sh`, a tie going to the even significand. -/
theorem roundedMagnitude_cases {p m : Nat} (hp : 2 ≤ p) (hm : 0 < m) :
    roundedMagnitude p m = m
    ∨ ∃ sh q rem : Nat, 2 ^ (p - 1) ≤ q ∧ m = q * 2 ^ sh + rem ∧ rem ≤ 2 ^ sh
      ∧ sh + (p - 1) ≤ (roundMagnitude p m).exponent
      ∧ ((roundedMagnitude p m = (q * 2 ^ sh : Nat) ∧ 2 * rem ≤ 2 ^ sh)
        ∨ (roundedMagnitude p m = (q * 2 ^ sh + 2 ^ sh : Nat) ∧ 2 ^ sh ≤ 2 * rem))
      ∧ (2 * rem = 2 ^ sh → (roundMagnitude p m).significand % 2 = 0) := by
  obtain hexact | ⟨sh, hsh, hlog, hexp, hnear⟩ := roundMagnitude_neighbour hp hm
  · exact .inl (roundedMagnitude_eq hexact)
  · have hhalf := Nat.two_pow_pred_mul_two (w := sh) hsh
    refine .inr ⟨sh, m / 2 ^ sh, m % 2 ^ sh, (kept_bounds hp hm hlog).left, (Nat.div_add_mod' m _).symm,
      (Nat.mod_lt m (by positivity)).le, hexp, ?_⟩
    obtain ⟨hvalue, hle, heven⟩ | ⟨hvalue, hge, heven⟩ := hnear
    · exact ⟨.inl ⟨roundedMagnitude_eq hvalue, by omega⟩, fun htie => heven (by omega)⟩
    · exact ⟨.inr ⟨by rw [← Nat.succ_mul]; exact roundedMagnitude_eq hvalue, by omega⟩, fun htie => heven (by omega)⟩

/-- Of two points with no candidate between them, the nearer one is as near to a point between them as any candidate;
another candidate is as near only from the middle. -/
theorem nearest_of_gap {low gap rem y z : ℚ} (hnonneg : 0 ≤ rem) (hle : rem ≤ gap) (hz : z ≤ low ∨ low + gap ≤ z)
    (hy : (y = low ∧ 2 * rem ≤ gap) ∨ (y = low + gap ∧ gap ≤ 2 * rem)) :
    |y - (low + rem)| ≤ |z - (low + rem)|
    ∧ (|y - (low + rem)| = |z - (low + rem)| → z ≠ y → 2 * rem = gap) := by
  have hzdist : (z ≤ low ∧ |z - (low + rem)| = low + rem - z)
      ∨ (low + gap ≤ z ∧ |z - (low + rem)| = z - (low + rem)) := by
    obtain hz | hz := hz
    · exact .inl ⟨hz, by rw [abs_of_nonpos (by linarith)]; ring⟩
    · exact .inr ⟨hz, abs_of_nonneg (by linarith)⟩
  obtain ⟨rfl, hrem⟩ | ⟨rfl, hrem⟩ := hy
  · rw [show y - (y + rem) = -rem by ring, abs_neg, abs_of_nonneg hnonneg]
    obtain ⟨hz, hdist⟩ | ⟨hz, hdist⟩ := hzdist
    · exact ⟨by linarith, fun htie hne => absurd (by linarith) hne⟩
    · exact ⟨by linarith, fun htie _ => by linarith⟩
  · rw [show low + gap - (low + rem) = gap - rem by ring, abs_of_nonneg (by linarith)]
    obtain ⟨hz, hdist⟩ | ⟨hz, hdist⟩ := hzdist
    · exact ⟨by linarith, fun htie _ => by linarith⟩
    · exact ⟨by linarith, fun htie hne => absurd (by linarith) hne⟩

/-- Rounding a magnitude is to nearest, ties to even, among the numbers of `p` significant bits. -/
theorem roundedMagnitude_nearest {p m : Nat} (hp : 2 ≤ p) (hm : 0 < m) {z : ℚ} (hz : HasPrecision p z) :
    |roundedMagnitude p m - m| ≤ |z - m|
    ∧ (|roundedMagnitude p m - m| = |z - m| → z ≠ roundedMagnitude p m →
        (roundMagnitude p m).significand % 2 = 0) := by
  obtain hexact | ⟨sh, q, rem, hq, hsplit, hrem, -, hnear, heven⟩ := roundedMagnitude_cases hp hm
  · rw [hexact, sub_self, abs_zero]
    exact ⟨abs_nonneg _, fun htie hne => absurd (sub_eq_zero.mp (abs_eq_zero.mp htie.symm)) hne⟩
  · have hm' : (m : ℚ) = q * 2 ^ sh + rem := by exact_mod_cast hsplit
    have hrem' : (rem : ℚ) ≤ 2 ^ sh := by exact_mod_cast hrem
    have hnear' : (roundedMagnitude p m = q * 2 ^ sh ∧ 2 * (rem : ℚ) ≤ 2 ^ sh)
        ∨ (roundedMagnitude p m = (q : ℚ) * 2 ^ sh + 2 ^ sh ∧ (2 : ℚ) ^ sh ≤ 2 * rem) := by exact_mod_cast hnear
    obtain ⟨hle, htie⟩ := nearest_of_gap rem.cast_nonneg hrem' (hz.le_or_ge (by omega) hq) hnear'
    rw [hm']
    exact ⟨hle, fun heq hne => heven (by exact_mod_cast htie heq hne)⟩

/-- R116 (e): the rounding moves a magnitude by at most half the weight of the last place of the significand. -/
theorem abs_roundedMagnitude_sub_le {p m : Nat} (hp : 2 ≤ p) (hm : 0 < m) :
    |roundedMagnitude p m - m| ≤ (2 : ℚ) ^ (((roundMagnitude p m).exponent : Int) - ((p : Int) - 1)) / 2 := by
  obtain hexact | ⟨sh, q, rem, -, hsplit, hrem, hexp, hnear, -⟩ := roundedMagnitude_cases hp hm
  · rw [hexact, sub_self, abs_zero]
    positivity
  · have hm' : (m : ℚ) = q * 2 ^ sh + rem := by exact_mod_cast hsplit
    have hrem' : (rem : ℚ) ≤ 2 ^ sh := by exact_mod_cast hrem
    have hnonneg : (0 : ℚ) ≤ rem := rem.cast_nonneg
    have hulp : (2 : ℚ) ^ sh ≤ 2 ^ (((roundMagnitude p m).exponent : Int) - ((p : Int) - 1)) := by
      rw [← zpow_natCast]
      exact zpow_le_zpow_right₀ one_le_two (by omega)
    have hhalf : |roundedMagnitude p m - m| ≤ 2 ^ sh / 2 := by
      rw [abs_le, hm']
      obtain ⟨hvalue, hle⟩ | ⟨hvalue, hge⟩ := hnear
      · have hle' : 2 * (rem : ℚ) ≤ 2 ^ sh := by exact_mod_cast hle
        rw [hvalue]
        push_cast
        constructor <;> linarith
      · have hge' : (2 : ℚ) ^ sh ≤ 2 * rem := by exact_mod_cast hge
        rw [hvalue]
        push_cast
        constructor <;> linarith
    linarith

/-! The rounded integer, with its sign. -/

/-- The value of an integer after rounding its magnitude to `p` significant bits. -/
def roundedValue (p : Nat) (v : Int) : ℚ :=
  v.sign * roundedMagnitude p v.natAbs

theorem roundedValue_zero (p : Nat) : roundedValue p 0 = 0 := by
  simp [roundedValue]

/-- The sign passes through the rounding: the error is that of the magnitude, and so is the distance to the candidate
with the sign taken off. -/
theorem roundedValue_signed (p : Nat) {v : Int} (hv : v ≠ 0) :
    ∃ σ : ℚ, (σ = 1 ∨ σ = -1) ∧ (v : ℚ) = σ * v.natAbs ∧ roundedValue p v = σ * roundedMagnitude p v.natAbs := by
  refine ⟨v.sign, ?_, ?_, rfl⟩
  · obtain hneg | hpos := lt_or_gt_of_ne hv
    · right
      rw [Int.sign_eq_neg_one_of_neg hneg]
      norm_num
    · left
      rw [Int.sign_eq_one_of_pos hpos]
      norm_num
  · rw [← Int.cast_natCast, ← Int.cast_mul, Int.sign_mul_natAbs]

theorem abs_roundedValue_sub (p : Nat) {v : Int} (hv : v ≠ 0) :
    |roundedValue p v - v| = |roundedMagnitude p v.natAbs - v.natAbs| := by
  obtain ⟨σ, hσ, hvalue, hround⟩ := roundedValue_signed p hv
  rw [hround, hvalue, ← mul_sub, abs_mul]
  obtain rfl | rfl := hσ <;> simp

/-- Rounding an integer is to nearest, ties to even, among the numbers of `p` significant bits. -/
theorem roundedValue_nearest {p : Nat} (hp : 2 ≤ p) (v : Int) {z : ℚ} (hz : HasPrecision p z) :
    |roundedValue p v - v| ≤ |z - v|
    ∧ (|roundedValue p v - v| = |z - v| → z ≠ roundedValue p v →
        (roundMagnitude p v.natAbs).significand % 2 = 0) := by
  by_cases hv : v = 0
  · rw [hv, roundedValue_zero, Int.cast_zero, sub_zero, sub_zero, abs_zero]
    exact ⟨abs_nonneg z, fun htie hne => absurd (abs_eq_zero.mp htie.symm) hne⟩
  · have hm := Int.natAbs_pos.mpr hv
    rw [abs_roundedValue_sub p hv]
    obtain ⟨σ, hσ, hvalue, hround⟩ := roundedValue_signed p hv
    rw [hround, hvalue]
    obtain rfl | rfl := hσ
    · rw [one_mul, one_mul]
      exact roundedMagnitude_nearest hp hm hz
    · obtain ⟨hle, htie⟩ := roundedMagnitude_nearest hp hm hz.neg
      have hdist : |z - -1 * (v.natAbs : ℚ)| = |-z - v.natAbs| := by
        rw [← abs_neg]
        congr 1
        ring
      rw [hdist]
      exact ⟨hle, fun heq hne => htie heq fun h => hne (by rw [← h]; ring)⟩

/-- R116 (e): a number of `p` significant bits is not moved. -/
theorem roundedValue_eq_self {p : Nat} (hp : 2 ≤ p) {v : Int} (h : HasPrecision p v) : roundedValue p v = v := by
  have hle := (roundedValue_nearest hp v h).left
  rw [sub_self, abs_zero] at hle
  exact sub_eq_zero.mp (abs_nonpos_iff.mp hle)

theorem hasPrecision_roundedValue {p : Nat} (hp : 2 ≤ p) (v : Int) : HasPrecision p (roundedValue p v) := by
  by_cases hv : v = 0
  · rw [hv, roundedValue_zero]
    exact hasPrecision_zero p
  · obtain ⟨-, hlt, -⟩ := roundMagnitude_bounds hp (Int.natAbs_pos.mpr hv)
    obtain ⟨σ, hσ, -, hround⟩ := roundedValue_signed p hv
    have habs : |σ| = 1 := by obtain rfl | rfl := hσ <;> simp
    have hnonneg : 0 ≤ roundedMagnitude p v.natAbs := by
      unfold roundedMagnitude
      positivity
    refine ⟨_, (roundMagnitude p v.natAbs).exponent - (p - 1 : Nat), hlt, ?_⟩
    rw [hround, abs_mul, habs, one_mul, abs_of_nonneg hnonneg, zpow_sub₀ two_ne_zero, zpow_natCast, zpow_natCast,
      roundedMagnitude, mul_div_assoc]

/-- The lesser of two points is no farther only up to their middle. -/
theorem two_mul_le_add_of_abs_sub_le {x y z : ℚ} (hxy : x < y) (h : |x - z| ≤ |y - z|) : 2 * z ≤ x + y := by
  have hsq := sq_le_sq.mpr h
  nlinarith

/-- R116 (d): rounding to nearest is monotone. If the two results were in the other order, each integer would lie on its
own result's side of their middle, and the integers would be in the other order too. -/
theorem roundedValue_mono {p : Nat} (hp : 2 ≤ p) {v1 v2 : Int} (h : v1 ≤ v2) :
    roundedValue p v1 ≤ roundedValue p v2 := by
  by_contra! hlt
  have hnear1 := (roundedValue_nearest hp v1 (hasPrecision_roundedValue hp v2)).left
  have hnear2 := (roundedValue_nearest hp v2 (hasPrecision_roundedValue hp v1)).left
  have hmid2 : 2 * (v2 : ℚ) ≤ roundedValue p v2 + roundedValue p v1 := two_mul_le_add_of_abs_sub_le hlt hnear2
  have hmid1 : 2 * -(v1 : ℚ) ≤ -roundedValue p v1 + -roundedValue p v2 := by
    refine two_mul_le_add_of_abs_sub_le (neg_lt_neg hlt) ?_
    rwa [neg_sub_neg, neg_sub_neg, abs_sub_comm, abs_sub_comm (v1 : ℚ)]
  have hle : (v2 : ℚ) ≤ v1 := by linarith
  have heq : v1 = v2 := le_antisymm h (by exact_mod_cast hle)
  exact hlt.ne (by rw [heq])

end Sys2Proof.Machine
end

section
/-! The laws of the conversions (R108, R116) and the two roundings of D13: the value of a converted pattern is the
rounded integer, and every pattern with a value has `p` significant bits. -/

namespace Sys2Proof.Machine

/-! The values of patterns. -/

theorem valueOf_of_normal {f : FloatFormat} {x : Nat} (h : kindOf f x = .normal) :
    valueOf f x = some ((-1 : ℚ) ^ signField f x * (2 : ℚ) ^ ((exponentField f x : Int) - f.bias)
      * (1 + (fractionField f x : ℚ) / 2 ^ (f.precision - 1))) := by
  simp [valueOf, h]

/-- R109: a pattern with a value is a zero or a normal number, which has `p` significant bits. -/
theorem hasPrecision_of_valueOf {f : FloatFormat} (hp : 1 ≤ f.precision) {x : Nat} {z : ℚ}
    (h : valueOf f x = some z) : HasPrecision f.precision z := by
  cases hkind : kindOf f x with
  | positiveZero | negativeZero =>
    obtain rfl : 0 = z := by simpa [valueOf, hkind] using h
    exact hasPrecision_zero _
  | subnormal | infinity | nan => simp [valueOf, hkind] at h
  | normal =>
    rw [valueOf_of_normal hkind, Option.some_inj] at h
    have hfrac : fractionField f x < 2 ^ (f.precision - 1) := Nat.mod_lt _ (by positivity)
    have hdouble := Nat.two_pow_pred_mul_two (w := f.precision) (by omega)
    have hfactor : (0 : ℚ) ≤ 1 + (fractionField f x : ℚ) / 2 ^ (f.precision - 1) := by positivity
    refine ⟨2 ^ (f.precision - 1) + fractionField f x,
      (exponentField f x : Int) - f.bias - (f.precision - 1 : Nat), by omega, ?_⟩
    rw [← h, abs_mul, abs_mul, abs_pow, abs_neg, abs_one, one_pow, one_mul, abs_of_nonneg (by positivity),
      abs_of_nonneg hfactor, zpow_sub₀ two_ne_zero _ ((f.precision - 1 : Nat) : Int), zpow_natCast]
    push_cast
    field_simp

/-- R108: the converted pattern stands for the integer rounded to `p` significant bits. -/
theorem valueOf_convert {f : FloatFormat} (hf : f.HoldsWords) {v : Int} (hrange : ConvertibleRange v) :
    valueOf f (convert f v) = some (roundedValue f.precision v) := by
  by_cases hv : v = 0
  · rw [hv, convert_zero, roundedValue_zero, valueOf, kindOf_zero]
  · obtain ⟨hsign, hexp, hfrac⟩ := convert_fields hf hv hrange
    obtain ⟨hsig, -, -⟩ := roundMagnitude_bounds hf.two_le_precision (Int.natAbs_pos.mpr hv)
    have hsignValue : (-1 : ℚ) ^ signBitOf v = v.sign := by
      unfold signBitOf
      obtain hneg | hpos := lt_or_gt_of_ne hv
      · simp [hneg, Int.sign_eq_neg_one_of_neg hneg]
      · simp [hpos.not_gt, Int.sign_eq_one_of_pos hpos]
    rw [valueOf_of_normal (kindOf_convert_of_ne_zero hf hv hrange), hsign, hexp, hfrac, hsignValue, roundedValue,
      roundedMagnitude, Nat.cast_sub hsig, Nat.cast_add, add_sub_cancel_right, zpow_natCast]
    push_cast
    congr 1
    field_simp
    ring

/-- R116 (e): half the last place of a converted pattern bounds the error. -/
theorem abs_roundedValue_sub_le_unitInLastPlace {f : FloatFormat} (hf : f.HoldsWords) {v : Int} (hv : v ≠ 0)
    (hrange : ConvertibleRange v) :
    |roundedValue f.precision v - v| ≤ unitInLastPlace f (convert f v) / 2 := by
  obtain ⟨-, hexp, -⟩ := convert_fields hf hv hrange
  rw [abs_roundedValue_sub _ hv, unitInLastPlace, hexp, Nat.cast_add, add_sub_cancel_right]
  exact abs_roundedMagnitude_sub_le hf.two_le_precision (Int.natAbs_pos.mpr hv)

/-- The fraction is the significand without its leading 1, of even weight, so it is even with the significand. -/
theorem fractionField_convert_even {f : FloatFormat} (hf : f.HoldsWords) {v : Int} (hrange : ConvertibleRange v)
    (heven : (roundMagnitude f.precision v.natAbs).significand % 2 = 0) :
    fractionField f (convert f v) % 2 = 0 := by
  by_cases hv : v = 0
  · rw [hv, convert_zero]
    simp [fractionField]
  · have hprec := hf.two_le_precision
    obtain ⟨-, -, hfrac⟩ := convert_fields hf hv hrange
    have hweight := Nat.two_pow_pred_mul_two (w := f.precision - 1) (by omega)
    rw [hfrac]
    omega

/-- Settles O57: among all numbers of `p` significant bits, so among the values of all patterns, the rounded integer is
the nearest. -/
theorem conversionRoundsToNearestTiesToEven : Obligations.ConversionRoundsToNearestTiesToEven := by
  unfold Obligations.ConversionRoundsToNearestTiesToEven
  refine ⟨fun f hf v hrange => ?_, fun v hrange => ⟨toBinary32_toNat hrange, toBinary64_toNat hrange⟩⟩
  have hwords := holdsWords_of_mem hf
  have hprec := hwords.two_le_precision
  refine ⟨_, valueOf_convert hwords hrange, fun x z hz => ?_⟩
  obtain ⟨hle, htie⟩ := roundedValue_nearest hprec v (hasPrecision_of_valueOf (by omega) hz)
  exact ⟨hle, fun heq hne => fractionField_convert_even hwords hrange (htie heq hne)⟩

/-- R116 (a): with sign bit 0 both readings give the converter one integer. -/
theorem conversion_modes_agree {a : Word} (h : a.getLsbD 63 = false) (b : Word) :
    alu .u2f a b = alu .s2f a b ∧ alu .u2d a b = alu .s2d a b := by
  rw [getLsbD_63_eq_decide, decide_eq_false_iff_not, not_lt] at h
  rw [alu, alu, alu, alu, opU2f, opS2f, opU2d, opS2d, unsignedOf_eq_signedOf h]
  exact ⟨rfl, rfl⟩

/-- Settles O59: (a) by the equal readings, (b) and (c) by the places of the pattern's bits, (d) and (e) by the value
of the pattern, which is the rounded integer. -/
theorem conversionLaws : Obligations.ConversionLaws := by
  unfold Obligations.ConversionLaws
  refine ⟨fun a b h => conversion_modes_agree h b,
    fun a b k hk => ⟨getLsbD_reinterpret32_of_ge _ hk, getLsbD_reinterpret32_of_ge _ hk⟩,
    fun a b => ⟨?signU2d, fun _ => ?signS2d⟩, fun f hf v1 v2 h1 h2 hle => ?monotone, fun f hf v hrange => ?error,
    fun i hi a b => conversion_flags hi a b⟩
  case signU2d => rw [getLsbD_63_alu_u2d, decide_eq_false (unsignedOf_nonneg a).not_gt]
  case signS2d => rw [getLsbD_63_alu_s2d, getLsbD_63_eq_decide]
  case monotone =>
    have hwords := holdsWords_of_mem hf
    exact ⟨_, _, valueOf_convert hwords h1, valueOf_convert hwords h2, roundedValue_mono hwords.two_le_precision hle⟩
  case error =>
    have hwords := holdsWords_of_mem hf
    exact ⟨_, valueOf_convert hwords hrange, fun hv => abs_roundedValue_sub_le_unitInLastPlace hwords hv hrange,
      fun q k hv hq => roundedValue_eq_self hwords.two_le_precision (hasPrecision_intCast hv hq)⟩

/-! The two roundings of D13. -/

/-- The rounding of the alternative is the identity on the integers of `p` significant bits: their magnitudes are
rounded exactly. -/
theorem roundInteger_eq_self {p q k : Nat} (hp : 2 ≤ p) {v : Int} (hv : v.natAbs = q * 2 ^ k) (hq : q < 2 ^ p) :
    roundInteger p v = v := by
  by_cases hzero : v = 0
  · rw [roundInteger, if_pos hzero, hzero]
  · have hexact : |roundedMagnitude p v.natAbs - v.natAbs| = 0 := by
      rw [← abs_roundedValue_sub p hzero, roundedValue_eq_self hp (hasPrecision_intCast hv hq), sub_self, abs_zero]
    have hvalue : roundedMagnitude p v.natAbs = v.natAbs := sub_eq_zero.mp (abs_eq_zero.mp hexact)
    rw [roundedMagnitude, div_eq_iff (by positivity)] at hvalue
    have hnat : (roundMagnitude p v.natAbs).significand * 2 ^ (roundMagnitude p v.natAbs).exponent
        = v.natAbs * 2 ^ (p - 1) := by exact_mod_cast hvalue
    rw [roundInteger, if_neg hzero, hnat, Nat.mul_div_cancel _ (by positivity), Int.sign_mul_natAbs]

/-- D13: the alternative rounds to binary64 before it does what the spec's choice does. -/
theorem toBinary32_viaBinary64 (v : Int) :
    toBinary32 .viaBinary64 v = toBinary32 .direct (roundInteger binary64.precision v) := rfl

/-- Settles O60: up to 53 significant bits the first of the two roundings changes nothing. -/
theorem twoRoundingsAgreeUpTo53Bits : Obligations.TwoRoundingsAgreeUpTo53Bits := by
  unfold Obligations.TwoRoundingsAgreeUpTo53Bits
  refine ⟨fun v q k hv hq _ => ?_, by decide, by decide⟩
  rw [toBinary32_viaBinary64, roundInteger_eq_self (p := binary64.precision) (by decide) hv hq]

end Sys2Proof.Machine
end
